-- ==== Sys2Proof/Word.lean ====
section
/-! DEFINITION. The words of the block: command words, frames, samples and bytes (00_scope.md R11, 30_encoding.md R100). -/

namespace Sys2Proof

/-- A command word, and the count word of a POP's result (30_encoding.md R100, R105). -/
abbrev Word := BitVec 32

/-- A frame: one stereo sample pair, 64 opaque bits (00_scope.md R11, 20_memory.md R64). -/
abbrev Frame := BitVec 64

/-- One channel's sample, 32 bits the block never interprets (20_memory.md R64). -/
abbrev Sample := BitVec 32

/-- One byte of a frame (20_memory.md R65). -/
abbrev Byte := BitVec 8

end Sys2Proof
end

