-- ==== Sys2Proof/Config.lean ====
section
/-! DEFINITION. What an implementation fixes: the capacity and the kind of snapshot (00_scope.md R10, R12). The spec leaves both
OPEN, so they are data that every statement ranges over; no step changes them. -/

namespace Sys2Proof

/-- The configuration of one block, fixed for its life (10_state.md R31). -/
structure Config where
  /-- `K`, the spec's CAPACITY_LOG2 (00_scope.md R10). -/
  capacityLog2 : Nat
  /-- STALE_VIEWS: may a snapshot return an older published index (00_scope.md R12). -/
  staleViews : Bool
  deriving DecidableEq, Repr

/-- `C = 2^K`, the number of slots (00_scope.md R10). -/
def Config.capacity (c : Config) : Nat := 2 ^ c.capacityLog2

/-- `MASK = C - 1` (00_scope.md R10). -/
def Config.mask (c : Config) : Nat := c.capacity - 1

/-- The configuration of the spec's test vectors, `K = 3` (00_scope.md R10), with the default snapshots, STALE_VIEWS true (R12).
DESIGN CHOICE (log 1): the spec gives `K` no value. -/
def Config.vectors : Config := ⟨3, true⟩

end Sys2Proof
end

