-- ==== Sys2Proof/Syntax.lean ====
section
/-! DEFINITION. The commands of the block, one constructor per row of the opcode table, and the ports they arrive on. -/

namespace Sys2Proof

/-- The command ports: P (producer), C (consumer), M (management) (00_scope.md R13). -/
inductive Port where
  | p
  | c
  | m
  deriving DecidableEq, Repr

/-- The commands (30_encoding.md R102). Counts are naturals, zero-extended from the 30-bit operand `N` (R101). -/
inductive Instr where
  /-- PUSH: offer `count` frames (40_push.md R120). -/
  | push (count : Nat)
  /-- POP: take at most `maxCount` frames (41_pop.md R140). -/
  | pop (maxCount : Nat)
  /-- RESET: empty the ring (42_reset.md R160). -/
  | reset
  deriving DecidableEq, Repr

/-- Why a word is no command (30_encoding.md R106). -/
inductive Illegal where
  /-- `OP = 00`, any `N`. -/
  | reservedOp (n : Nat)
  /-- `OP = 11` with `N` other than 0. -/
  | resetWithCount (n : Nat)
  deriving DecidableEq, Repr

end Sys2Proof
end

