-- ==== Sys2Proof/WellFormed.lean ====
section
/-! DEFINITION. The checks on a command and on a configuration. -/

namespace Sys2Proof

/-- A count operand fits its field: COUNT_W is 30 (30_encoding.md R101). -/
def countFits (n : Nat) : Bool := decide (n < 2 ^ 30)

/-- A command whose operand its encoding can hold (30_encoding.md R101, R102). -/
def Instr.wf : Instr → Bool
  | .push count => countFits count
  | .pop maxCount => countFits maxCount
  | .reset => true

/-- `K` is at least 1; a configuration with `K = 0` is refused (00_scope.md R10). -/
def Config.wf (c : Config) : Bool := decide (1 ≤ c.capacityLog2)

end Sys2Proof
end

