-- ==== Sys2Proof/Decode.lean ====
section
/-! DEFINITION. Decoding and encoding of command words (30_encoding.md R100 to R111). -/

namespace Sys2Proof

/-- `OP = w[31:30]` (30_encoding.md R100). -/
def opField (w : Word) : BitVec 2 := w.extractLsb' 30 2

/-- `N = w[29:0]`, zero-extended to a natural (30_encoding.md R101). -/
def countField (w : Word) : Nat := (w.extractLsb' 0 30).toNat

/-- The decoder: total on words, rejecting by name (30_encoding.md R107, R106). -/
def decode (w : Word) : Except Illegal Instr :=
  if opField w = 0b01#2 then .ok (.push (countField w))
  else if opField w = 0b10#2 then .ok (.pop (countField w))
  else if opField w = 0b11#2 then
    if countField w = 0 then .ok .reset else .error (.resetWithCount (countField w))
  else .error (.reservedOp (countField w))

/-- The port a command is legal on (30_encoding.md R111). -/
def portOf : Instr → Port
  | .push _ => .p
  | .pop _ => .c
  | .reset => .m

/-- A word from its two fields (30_encoding.md R100). -/
def commandWord (op : BitVec 2) (n : Nat) : Word := op ++ BitVec.ofNat 30 n

/-- The encoder (30_encoding.md R102). -/
def encode : Instr → Word
  | .push count => commandWord 0b01#2 count
  | .pop maxCount => commandWord 0b10#2 maxCount
  | .reset => commandWord 0b11#2 0

/-- The host's question: the command of a table word of `nbits` bits. A command is one 32-bit word (30_encoding.md R108), so a
longer one is no command. -/
def decodeTableWord (nbits w : Nat) : Option Instr :=
  if nbits ≤ 32 then (decode (BitVec.ofNat 32 (w % 2 ^ nbits))).toOption else none

end Sys2Proof
end

