-- ==== Sys2Proof/Machine/State.lean ====
section
/-! DEFINITION. The state of the block (10_state.md R30), what the environment drives, and the state at power-on (R47). -/

namespace Sys2Proof.Machine

/-- The frame storage: the written cells as (slot index, frame), indices strictly rising. A slot that is not listed holds the
spec's `none` (10_state.md R32; log 8). -/
abbrev Memory := List (Nat × Frame)

/-- The canonical form of the storage of a block with `capacity` slots: rising indices, each a slot that exists (20_memory.md R60). -/
abbrev Memory.wf (capacity : Nat) (m : Memory) : Prop :=
  m.Pairwise (fun a b => a.1 < b.1) ∧ ∀ e ∈ m, e.1 < capacity

/-- The phase of port P (10_state.md R41). -/
inductive PhaseP where
  | idle
  /-- A PUSH is between its issue and its completion and will store `fs`, `n` frames. -/
  | pushBusy (n : Nat) (fs : List Frame)
  deriving DecidableEq, Repr

/-- The phase of port C (10_state.md R42). -/
inductive PhaseC where
  | idle
  /-- A POP is between its issue and its completion and will read `n` frames. -/
  | popBusy (n : Nat)
  deriving DecidableEq, Repr

/-- The codes of the fault register (60_exceptions.md R170). -/
inductive FaultCode where
  | noFault
  | illegalCommand
  | wrongPort
  | portBusy
  | resetBusy
  | payloadLength
  | unwrittenSlot
  deriving DecidableEq, Repr

/-- A result returned on a port (30_encoding.md R105). -/
inductive Result where
  /-- The acknowledgement of a PUSH or a RESET, with no data. -/
  | ack
  /-- A POP's result: the count word and the frames, oldest first. -/
  | popped (n : Word) (fs : List Frame)
  deriving DecidableEq, Repr

/-- One move of the environment (00_scope.md R13): the model's own, no state of the block (10_state.md R31; log 2). -/
inductive Move where
  /-- An agent presents a command word, with a payload and, for the snapshot the command may take, a draw (20_memory.md R72). -/
  | present (port : Port) (word : Word) (src : List Frame) (draw : Nat)
  /-- Port P takes its completion step. -/
  | completeP
  /-- Port C takes its completion step. -/
  | completeC
  deriving DecidableEq, Repr

/-- What the environment drives while a command is presented (the `p`, `w`, `src` of 60_exceptions.md R172 and the draw of
20_memory.md R72, R73): the model's own (log 4). `draw` is a FREE VALUE (log 5). -/
structure Bus where
  port : Port
  word : Word
  src : List Frame
  draw : Nat
  deriving DecidableEq, Repr

/-- Why the model stops. Both are safe: a run that meets one proves nothing. -/
inductive Fault where
  /-- Raised by every step and every command once the fault register is not 0: no step of any port is enabled
  (60_exceptions.md R171). Safe: the block is stuck and the run is a failed run (R184). -/
  | blockFaulted (code : FaultCode)
  /-- Raised by the issue step of a PUSH or POP when no position of the history is left to draw from (20_memory.md R72, R73): the
  view lies beyond the published history, which no run reaches. Safe: the spec's draw has no value there, so there is no step. -/
  | noView
  deriving DecidableEq, Repr

/-- Why the model refuses a step. -/
inductive Refusal where
  /-- Raised by an arm of `exec` whose command has no meaning yet; no arm is left that does. Safe. -/
  | notModelled (mnemonic : String)
  /-- Raised by every step and every command of a block configured with `K = 0` (00_scope.md R10, 70_reset_and_hazards.md R203).
  Safe: the spec refuses that configuration. -/
  | zeroCapacity
  deriving DecidableEq, Repr

/-- The state: the tuple of 10_state.md R30, then the model's own fields (log 1, 2, 4, 6). -/
structure State where
  /-- `slot` (R32). -/
  slot : Memory
  /-- `head`, the next write slot (R33). -/
  head : Nat
  /-- `tail`, the next read slot (R34). -/
  tail : Nat
  /-- The phase of port P (R41). -/
  portP : PhaseP
  /-- The phase of port C (R42). -/
  portC : PhaseC
  /-- The values of `head` since the last reset, oldest first (R44). -/
  headHist : List Nat
  /-- The values of `tail` since the last reset, oldest first (R44). -/
  tailHist : List Nat
  /-- The position in `tailHist` of the producer's latest snapshot (R44). -/
  pSeen : Nat
  /-- The position in `headHist` of the consumer's latest snapshot (R44). -/
  cSeen : Nat
  /-- The fault register (R45). -/
  fault : FaultCode
  /-- The configuration, which no step changes (R31). -/
  cfg : Config
  /-- The moves the environment still makes, in order. -/
  schedule : List Move
  /-- What the environment drives in the present step. -/
  bus : Bus
  /-- The results returned on port P, in order (30_encoding.md R105, 70_reset_and_hazards.md R211). -/
  resultsP : List Result
  /-- The results returned on port C, in order. -/
  resultsC : List Result
  /-- The results returned on port M, in order. -/
  resultsM : List Result
  deriving DecidableEq, Repr

/-- Every step's three outcomes. -/
abbrev Out := Host.Outcome State Fault Refusal

/-- The state of a block of configuration `c` at power-on (10_state.md R47, 70_reset_and_hazards.md R200), facing an environment
that makes the moves of `moves`. -/
def State.powerOn (c : Config) (moves : List Move) : State where
  slot := []
  head := 0
  tail := 0
  portP := .idle
  portC := .idle
  headHist := [0]
  tailHist := [0]
  pSeen := 0
  cSeen := 0
  fault := .noFault
  cfg := c
  schedule := moves
  bus := ⟨.p, 0, [], 0⟩
  resultsP := []
  resultsC := []
  resultsM := []

/-- The machine right after reset: power-on with the vectors' capacity and a silent environment (log 1, log 2). -/
def State.reset : State := State.powerOn Config.vectors []

end Sys2Proof.Machine
end

