-- ==== Sys2Proof/Machine/Ops.lean ====
section
/-! DEFINITION. The named operations the commands are made of: frames and bytes, slots, snapshots, results, and the one way a
fault is raised. -/

namespace Sys2Proof.Machine

/-! Frames as samples and bytes (20_memory.md R64, R65). -/

/-- The left-channel sample, `f[31:0]` (20_memory.md R64). -/
def leftSample (f : Frame) : Sample := f.extractLsb' 0 32

/-- The right-channel sample, `f[63:32]` (20_memory.md R64). -/
def rightSample (f : Frame) : Sample := f.extractLsb' 32 32

/-- The frame literal `F(L, R)` (30_encoding.md R109, 20_memory.md R64). -/
def frameOf (left right : Sample) : Frame := right ++ left

/-- Byte `j` of a frame, `f[8j+7:8j]` (20_memory.md R65). -/
def frameByte (f : Frame) (j : Nat) : Byte := f.extractLsb' (8 * j) 8

/-- A frame as its 8 bytes, byte 0 first (20_memory.md R65). -/
def frameBytes (f : Frame) : List Byte := (List.range 8).map (frameByte f)

/-- The number whose bytes are `bs`, the first least significant (20_memory.md R65). -/
def leNumber : List Byte → Nat
  | [] => 0
  | b :: bs => b.toNat + 2 ^ 8 * leNumber bs

/-- The frame carried as bytes, byte 0 first (20_memory.md R65). -/
def frameOfBytes (bs : List Byte) : Frame := BitVec.ofNat 64 (leNumber bs)

/-! Slots (20_memory.md R60 to R66). -/

/-- `x & MASK` (00_scope.md R15). -/
def wrap (c : Config) (x : Nat) : Nat := x &&& c.mask

/-- The slots of a transfer of `n` frames from base `b`: element `i` is in slot `(b + i) & MASK` (20_memory.md R62). -/
def slotRun (c : Config) (b n : Nat) : List Nat := (List.range n).map fun i => wrap c (b + i)

/-- `MemRead(s, 8)`: the frame slot `s` holds, or `none` if nothing has written it (00_scope.md R16, 10_state.md R32). -/
def memRead : Memory → Nat → Option Frame
  | [], _ => none
  | (a, f) :: m, s => if a = s then some f else memRead m s

/-- `MemWrite(s, 8, v)`: store a frame, keeping the indices rising (00_scope.md R16). -/
def memWrite : Memory → Nat → Frame → Memory
  | [], s, v => [(s, v)]
  | (a, f) :: m, s, v =>
    if s < a then (s, v) :: (a, f) :: m
    else if s = a then (s, v) :: m
    else (a, f) :: memWrite m s v

/-- The byte at offset `a % 8` of slot `a / 8`, in the `8 * C` bytes of the slot space (20_memory.md R60, R65). -/
def memByte (m : Memory) (a : Nat) : Option Byte := (memRead m (a / 8)).map fun f => frameByte f (a % 8)

/-- Store one frame in each listed slot (the loop of 40_push.md R125). -/
def storeAll : Memory → List Nat → List Frame → Memory
  | m, s :: ss, f :: fs => storeAll (memWrite m s f) ss fs
  | m, _, _ => m

/-- Read every listed slot; `none` if one of them holds no frame (the loop of 41_pop.md R145). -/
def loadAll (m : Memory) : List Nat → Option (List Frame)
  | [] => some []
  | s :: ss =>
    match memRead m s, loadAll m ss with
    | some f, some fs => some (f :: fs)
    | _, _ => none

/-! Results and faults. -/

/-- `respond(port, r)` (00_scope.md R16, 30_encoding.md R105). -/
def respond (port : Port) (r : Result) (s : State) : State :=
  match port with
  | .p => { s with resultsP := s.resultsP ++ [r] }
  | .c => { s with resultsC := s.resultsC ++ [r] }
  | .m => { s with resultsM := s.resultsM ++ [r] }

/-- The number of a fault code (60_exceptions.md R170). -/
def faultNumber : FaultCode → Nat
  | .noFault => 0
  | .illegalCommand => 1
  | .wrongPort => 2
  | .portBusy => 3
  | .resetBusy => 4
  | .payloadLength => 5
  | .unwrittenSlot => 6

/-- `raise Fault(code)`: TAKING AN EXCEPTION. The first fault is recorded and nothing else changes (60_exceptions.md R171, R183).
There is no return from it (R185). -/
def raiseFault (code : FaultCode) (s : State) : State :=
  if s.fault = .noFault then { s with fault := code } else s

/-- What every step does only if a step is enabled at all: a block with `K = 0` is refused (00_scope.md R10), and a faulted block
takes no step (60_exceptions.md R171). -/
def whenRunning (s : State) (out : Out) : Out :=
  if s.cfg.wf = false then .refused .zeroCapacity
  else if s.fault = .noFault then out
  else .fault (.blockFaulted s.fault)

/-- The port check common to every command (60_exceptions.md R172, R174). -/
def onPort (port : Port) (s : State) (out : Out) : Out :=
  if s.bus.port = port then out else .next (raiseFault .wrongPort s)

/-! Snapshots (20_memory.md R72, R73). -/

/-- A snapshot of a history: its position `j` and the value there. With stale views the draw picks any position from `seen` to the
last, and every such position is some draw's (log 5); without, `j` is the last. `none`: there is no such position. -/
def snapshot (stale : Bool) (draw seen : Nat) (hist : List Nat) : Option (Nat × Nat) :=
  let j := if stale then seen + draw % (hist.length - seen) else hist.length - 1
  hist[j]?.map fun v => (j, v)

/-- `ViewTail()`: the producer's acquire read of `tail`; the answer and the state with `pSeen` moved (20_memory.md R72, R76). -/
def viewTail (s : State) : Option (Nat × State) :=
  (snapshot s.cfg.staleViews s.bus.draw s.pSeen s.tailHist).map fun (j, t) => (t, { s with pSeen := j })

/-- `ViewHead()`: the consumer's acquire read of `head` (20_memory.md R73). -/
def viewHead (s : State) : Option (Nat × State) :=
  (snapshot s.cfg.staleViews s.bus.draw s.cSeen s.headHist).map fun (j, h) => (h, { s with cSeen := j })

/-! The environment's moves. -/

/-- The move the next step makes. A silent environment lets a busy port complete, P before C (70_reset_and_hazards.md R202;
log 3). -/
def nextMove (s : State) : Option Move :=
  match s.schedule with
  | m :: _ => some m
  | [] => if s.portP ≠ .idle then some .completeP else if s.portC ≠ .idle then some .completeC else none

/-- The move has been taken off the schedule. -/
def takeMove (s : State) : State := { s with schedule := s.schedule.tail }

/-- The environment drives a command (60_exceptions.md R172; log 4). -/
def drive (port : Port) (word : Word) (src : List Frame) (draw : Nat) (s : State) : State :=
  { s with bus := ⟨port, word, src, draw⟩ }

/-- A command word as its own agent presents it: on the command's port, a PUSH with a payload of zero frames (log 10). -/
def fetchMove (word : Word) (draw : Nat) : Move :=
  match decode word with
  | .ok (.push count) => .present .p word (List.replicate count 0) draw
  | .ok (.pop _) => .present .c word [] draw
  | .ok .reset => .present .m word [] draw
  | .error _ => .present .p word [] draw

end Sys2Proof.Machine
end

