-- ==== Sys2Proof/Machine/Operands.lean ====
section
/-! DEFINITION. The quantities the commands compute from their count operand and the indices (00_scope.md R15, R17). -/

namespace Sys2Proof.Machine

/-- `used(h, t) = (h - t) mod C`, computed as `(h + C - t) mod C` (00_scope.md R15, R17). -/
def used (c : Config) (h t : Nat) : Nat := (h + c.capacity - t) % c.capacity

/-- `free(h, t) = C - 1 - used(h, t)` (00_scope.md R17). -/
def free (c : Config) (h t : Nat) : Nat := c.capacity - 1 - used c h t

/-- `available(h, t) = used(h, t)` (00_scope.md R17). -/
def available (c : Config) (h t : Nat) : Nat := used c h t

/-- How many frames a PUSH of `count` frames keeps when the producer sees `t` (40_push.md R123). -/
def kept (s : State) (count t : Nat) : Nat := min count (free s.cfg s.head t)

/-- How many frames a POP of at most `maxCount` frames takes when the consumer sees `h` (41_pop.md R143). -/
def taken (s : State) (maxCount h : Nat) : Nat := min (available s.cfg h s.tail) maxCount

/-- The index after a transfer of `n` frames from `b` (40_push.md R125, 41_pop.md R145). -/
def advanceIndex (c : Config) (b n : Nat) : Nat := wrap c (b + n)

end Sys2Proof.Machine
end

