-- ==== Sys2Proof/Machine/Pop.lean ====
section
/-! DEFINITION. POP on the consumer port: issue and completion (41_pop.md). -/

namespace Sys2Proof.Machine

/-- The issue check of POP (41_pop.md R142). -/
def popIssueCheck (s : State) : Option FaultCode :=
  if s.portC ≠ .idle then some .portBusy else none

/-- A POP's result: the count as a 32-bit word, then the frames (30_encoding.md R105). -/
def popResult (n : Nat) (fs : List Frame) : Result := .popped (BitVec.ofNat 32 n) fs

/-- The issue step of a POP with a maximum of at least 1 (41_pop.md R143, R144). -/
def popIssue (maxCount : Nat) (s : State) : Out :=
  match viewHead s with
  | none => .fault .noView
  | some (h, s') =>
    if taken s maxCount h = 0 then .next (respond .c (popResult 0 []) s')
    else .next { s' with portC := .popBusy (taken s maxCount h) }

/-- POP presented on a port (60_exceptions.md R172, 41_pop.md R140 to R144). -/
def execPop (maxCount : Nat) (s : State) : Out :=
  whenRunning s <| onPort (portOf (.pop maxCount)) s <|
    match popIssueCheck s with
    | some code => .next (raiseFault code s)
    | none => if maxCount = 0 then .next (respond .c (popResult 0 []) s) else popIssue maxCount s

/-- The state after a POP completion (41_pop.md R145): the slots are read, not cleared. -/
def popComplete (n : Nat) (s : State) : State :=
  match loadAll s.slot (slotRun s.cfg s.tail n) with
  | none => raiseFault .unwrittenSlot s
  | some fs =>
    let t := advanceIndex s.cfg s.tail n
    respond .c (popResult n fs)
      { s with
        tail := t
        tailHist := s.tailHist ++ [t]
        portC := .idle }

/-- The completion step of port C, enabled while the port is busy (41_pop.md R145). Asked of an idle port nothing happens
(log 3). -/
def completeC (s : State) : Out :=
  whenRunning s <|
    match s.portC with
    | .idle => .next s
    | .popBusy n => .next (popComplete n s)

end Sys2Proof.Machine
end

