-- ==== Sys2Proof/Machine/Push.lean ====
section
/-! DEFINITION. PUSH on the producer port: issue and completion (40_push.md). -/

namespace Sys2Proof.Machine

/-- The issue checks of PUSH, the first that applies (40_push.md R122). -/
def pushIssueCheck (count : Nat) (s : State) : Option FaultCode :=
  if s.portP ≠ .idle then some .portBusy
  else if s.bus.src.length ≠ count then some .payloadLength
  else none

/-- The issue step of a PUSH with a count of at least 1 (40_push.md R123, R124): the frames beyond the free space the producer sees
are dropped, and with none left the command is done. -/
def pushIssue (count : Nat) (s : State) : Out :=
  match viewTail s with
  | none => .fault .noView
  | some (t, s') =>
    if kept s count t = 0 then .next (respond .p .ack s')
    else .next { s' with portP := .pushBusy (kept s count t) (s.bus.src.take (kept s count t)) }

/-- PUSH presented on a port (60_exceptions.md R172, 40_push.md R120 to R124). -/
def execPush (count : Nat) (s : State) : Out :=
  whenRunning s <| onPort (portOf (.push count)) s <|
    match pushIssueCheck count s with
    | some code => .next (raiseFault code s)
    | none => if count = 0 then .next (respond .p .ack s) else pushIssue count s

/-- The state after a PUSH completion (40_push.md R125): slots, index and history written together. -/
def pushComplete (n : Nat) (fs : List Frame) (s : State) : State :=
  let h := advanceIndex s.cfg s.head n
  respond .p .ack
    { s with
      slot := storeAll s.slot (slotRun s.cfg s.head n) fs
      head := h
      headHist := s.headHist ++ [h]
      portP := .idle }

/-- The completion step of port P, enabled while the port is busy (40_push.md R125). Asked of an idle port nothing happens
(log 3). -/
def completeP (s : State) : Out :=
  whenRunning s <|
    match s.portP with
    | .idle => .next s
    | .pushBusy n fs => .next (pushComplete n fs s)

end Sys2Proof.Machine
end

