-- ==== Sys2Proof/Machine/ResetCommand.lean ====
section
/-! DEFINITION. RESET on the management port (42_reset.md). -/

namespace Sys2Proof.Machine

/-- The check of RESET (42_reset.md R161, R162). -/
def resetCheck (s : State) : Option FaultCode :=
  if s.portP ≠ .idle ∨ s.portC ≠ .idle then some .resetBusy else none

/-- The state after a RESET: indices, histories and views at their first values; the slots as they are (42_reset.md R161). -/
def resetRing (s : State) : State :=
  respond .m .ack
    { s with head := 0, tail := 0, headHist := [0], tailHist := [0], pSeen := 0, cSeen := 0 }

/-- RESET presented on a port (60_exceptions.md R172, 42_reset.md R160, R161). -/
def execReset (s : State) : Out :=
  whenRunning s <| onPort (portOf .reset) s <|
    match resetCheck s with
    | some code => .next (raiseFault code s)
    | none => .next (resetRing s)

end Sys2Proof.Machine
end

