-- ==== Sys2Proof/Machine/Dispatch.lean ====
section
/-! DEFINITION. One arm per command (60_exceptions.md R172). -/

namespace Sys2Proof.Machine

def exec (i : Instr) (s : State) : Host.Outcome State Fault Refusal :=
  match i with
  | .push count => Sys2Proof.Machine.execPush count s
  | .pop maxCount => Sys2Proof.Machine.execPop maxCount s
  | .reset => Sys2Proof.Machine.execReset s

end Sys2Proof.Machine
end

