-- ==== Sys2Proof/Machine/Moves.lean ====
section
/-! DEFINITION. What a move of the environment does (00_scope.md R13, 20_memory.md R71, 60_exceptions.md R172), and the source's
three calls written as moves (30_encoding.md R110). -/

namespace Sys2Proof.Machine

/-- A command word presented on a port: decoded, then run; a word that is no command raises ILLEGAL_COMMAND on whatever port it
arrives (60_exceptions.md R172, R173). -/
def present (word : Word) (s : State) : Out :=
  match decode word with
  | .error _ => whenRunning s (.next (raiseFault .illegalCommand s))
  | .ok i => exec i s

/-- The block makes one move (00_scope.md R13). -/
def makeMove (m : Move) (s : State) : Out :=
  match m with
  | .present port word src draw => present word (drive port word src draw s)
  | .completeP => completeP s
  | .completeC => completeC s

/-- With nothing presented and nothing in flight the block idles (60_exceptions.md R196). -/
def idleStep (s : State) : Out := whenRunning s (.next s)

/-- The source's `push_frames(src, count)` (30_encoding.md R110). -/
def callPush (src : List Frame) (draw : Nat) : Move := .present .p (encode (.push src.length)) src draw

/-- The source's `pop_frames(dst, max_count)` (30_encoding.md R110). -/
def callPop (maxCount draw : Nat) : Move := .present .c (encode (.pop maxCount)) [] draw

/-- The source's buffer reset (30_encoding.md R110). -/
def callReset : Move := .present .m (encode .reset) [] 0

end Sys2Proof.Machine
end

