-- ==== Sys2Proof/Machine/Step.lean ====
section
/-! DEFINITION. One step of the block: the next move of the environment (00_scope.md R13). -/

namespace Sys2Proof.Machine

/-- One step of one port, or none (00_scope.md R13, 20_memory.md R71). -/
def step (s : State) : Host.Outcome State Fault Refusal :=
  match nextMove s with
  | none => idleStep s
  | some m => makeMove m (takeMove s)

/-- The state whose next step presents the table word `w` of `nbits` bits on its own port (log 10). -/
def State.withFetchWord (s : State) (nbits w : Nat) : State :=
  { s with schedule := fetchMove (BitVec.ofNat 32 (w % 2 ^ nbits)) s.bus.draw :: s.schedule }

end Sys2Proof.Machine
end

