-- ==== Sys2Proof/Machine/Flags.lean ====
section
/-! DEFINITION. The status predicates. The block stores no flag and no command writes one (10_state.md R37). -/

namespace Sys2Proof.Machine

/-- `empty = (head == tail)` (10_state.md R37). -/
def isEmpty (s : State) : Bool := s.head == s.tail

/-- `full = (used(head, tail) == C - 1)` (10_state.md R37). -/
def isFull (s : State) : Bool := used s.cfg s.head s.tail == s.cfg.capacity - 1

end Sys2Proof.Machine
end

