-- ==== Sys2Proof/Safety.lean ====
section
/-! DEFINITION. What a run is judged by: finished and failed runs, the live frames, what was accepted, returned and dropped, and the
invariant of the block (20_memory.md section 5, 70_reset_and_hazards.md R211). -/

namespace Sys2Proof.Machine

/-- A block whose ports can step: `K` at least 1 and no fault (00_scope.md R10, 60_exceptions.md R171). -/
def StepsEnabled (s : State) : Prop := s.cfg.wf = true ∧ s.fault = .noFault

/-- `k` steps, as the host runs them. -/
def runSteps (k : Nat) (s : State) : Out := Host.Core.run Sys2Proof.core k s

/-- The producer's snapshot may be entry `j` of the history of `tail`, with value `t` (20_memory.md R72). -/
def ProducerMaySee (s : State) (j t : Nat) : Prop :=
  s.tailHist[j]? = some t ∧ if s.cfg.staleViews = true then s.pSeen ≤ j else j = s.tailHist.length - 1

/-- The consumer's snapshot may be entry `j` of the history of `head`, with value `h` (20_memory.md R73). -/
def ConsumerMaySee (s : State) (j h : Nat) : Prop :=
  s.headHist[j]? = some h ∧ if s.cfg.staleViews = true then s.cSeen ≤ j else j = s.headHist.length - 1

/-- A finished run: no fault, both ports idle, every command presented (70_reset_and_hazards.md R211). -/
def finished (s : State) : Bool :=
  decide (s.fault = .noFault ∧ s.portP = .idle ∧ s.portC = .idle ∧ s.schedule = [])

/-- A failed run (60_exceptions.md R184). -/
def failed (s : State) : Bool := decide (s.fault ≠ .noFault)

/-- The results on a port, in order: all that the port's agent observes (10_state.md R48). -/
def resultsOn (s : State) : Port → List Result
  | .p => s.resultsP
  | .c => s.resultsC
  | .m => s.resultsM

/-! What is in the ring, and what went through it. -/

/-- The contents of the live slots, oldest first (00_scope.md R19). -/
def live (s : State) : List (Option Frame) :=
  (slotRun s.cfg s.tail (used s.cfg s.head s.tail)).map (memRead s.slot)

/-- The frames returned in a port's results, in order (20_memory.md R86). -/
def returnedIn : List Result → List Frame
  | [] => []
  | .ack :: rs => returnedIn rs
  | .popped _ fs :: rs => fs ++ returnedIn rs

/-- The number of frames of a PUSH in flight. -/
def inFlight (s : State) : Nat :=
  match s.portP with
  | .idle => 0
  | .pushBusy n _ => n

/-- The frames the next step accepts: those of the PUSH it completes (20_memory.md R86). -/
def accepts (s : State) : List Frame :=
  match nextMove s, s.portP with
  | some .completeP, .pushBusy _ fs => fs
  | _, _ => []

/-- Does the next step carry out a RESET (42_reset.md R161). -/
def resets (s : State) : Bool :=
  match nextMove s with
  | some (.present .m word _ _) => decide (decode word = .ok .reset ∧ resetCheck s = none)
  | _ => false

/-- The number of frames the next step is given with a PUSH that passes its checks (20_memory.md R87). -/
def offers (s : State) : Nat :=
  match nextMove s with
  | some (.present .p word src draw) =>
    match decode word with
    | .ok (.push count) => if pushIssueCheck count (drive .p word src draw s) = none then count else 0
    | _ => 0
  | _ => 0

/-- How many of them it drops: those not in flight after the issue step (40_push.md R126). -/
def drops (s : State) : Nat :=
  match step s with
  | .next s' => offers s - (inFlight s' - inFlight s)
  | _ => 0

/-- The frames accepted in `k` steps from `s`, in order of completion (20_memory.md R86). -/
def acceptedOver : Nat → State → List Frame
  | 0, _ => []
  | k + 1, s =>
    match step s with
    | .next s' => accepts s ++ acceptedOver k s'
    | _ => []

/-- The frames given to all PUSHes in `k` steps from `s` (20_memory.md R87). -/
def offeredOver : Nat → State → Nat
  | 0, _ => 0
  | k + 1, s =>
    match step s with
    | .next s' => offers s + offeredOver k s'
    | _ => 0

/-- The frames the PUSHes dropped in `k` steps from `s` (20_memory.md R87). -/
def droppedOver : Nat → State → Nat
  | 0, _ => 0
  | k + 1, s =>
    match step s with
    | .next s' => drops s + droppedOver k s'
    | _ => 0

/-- No RESET is carried out in `k` steps from `s` (20_memory.md R87). -/
def noResetOver : Nat → State → Bool
  | 0, _ => true
  | k + 1, s =>
    match step s with
    | .next s' => !resets s && noResetOver k s'
    | _ => true

/-! The invariant. -/

/-- How far an index moved from the first entry of its history to entry `j`: since each write moves it on by 1 to `C - 1`
(10_state.md R35), the number of frames transferred by then. -/
def travelled (c : Config) : List Nat → Nat → Nat
  | a :: b :: hist, j + 1 => used c b a + travelled c (b :: hist) j
  | _, _ => 0

/-- `H` of 20_memory.md R84: frames accepted since the last reset. -/
def pushedTotal (s : State) : Nat := travelled s.cfg s.headHist (s.headHist.length - 1)

/-- `T` of 20_memory.md R84: frames returned since the last reset. -/
def poppedTotal (s : State) : Nat := travelled s.cfg s.tailHist (s.tailHist.length - 1)

/-- `H_v` of 20_memory.md R84: the accepted frames that the consumer's view stands for. -/
def pushedSeen (s : State) : Nat := travelled s.cfg s.headHist s.cSeen

/-- `T_v` of 20_memory.md R84: the returned frames that the producer's view stands for. -/
def poppedSeen (s : State) : Nat := travelled s.cfg s.tailHist s.pSeen

/-- A history of an index register and a view into it (10_state.md R44). -/
structure HistoryOk (c : Config) (hist : List Nat) (now seen : Nat) : Prop where
  /-- It begins with the value set by the last reset. -/
  first : hist.head? = some 0
  /-- Its last entry is the register. -/
  last : hist.getLast? = some now
  /-- Every entry is a K-bit value (R33). -/
  range : ∀ v ∈ hist, v < c.capacity
  /-- The view is a position of it. -/
  view : seen < hist.length

/-- The invariant of the block: what every reachable state satisfies (20_memory.md R83, R84; 10_state.md R33, R34, R41, R42, R44). -/
structure RingInv (s : State) : Prop where
  /-- `K` is at least 1 (00_scope.md R10). -/
  capacity : s.cfg.wf = true
  /-- The storage is in canonical form, within the slot space (20_memory.md R60). -/
  storage : s.slot.wf s.cfg.capacity
  /-- `head`, its history and the consumer's view (10_state.md R33, R44). -/
  heads : HistoryOk s.cfg s.headHist s.head s.cSeen
  /-- `tail`, its history and the producer's view (10_state.md R34, R44). -/
  tails : HistoryOk s.cfg s.tailHist s.tail s.pSeen
  /-- The consumer has taken no frame that its view does not hold (20_memory.md R84). -/
  lag : poppedTotal s ≤ pushedSeen s
  /-- The producer is within one lap of its view (20_memory.md R84). -/
  lap : pushedTotal s ≤ poppedSeen s + (s.cfg.capacity - 1)
  /-- A PUSH in flight holds at least one frame and fits the free space the producer saw (10_state.md R41, 20_memory.md R85). -/
  pushing : ∀ n fs, s.portP = .pushBusy n fs →
    1 ≤ n ∧ fs.length = n ∧ pushedTotal s + n ≤ poppedSeen s + (s.cfg.capacity - 1)
  /-- A POP in flight takes at least one frame, of those the consumer saw (10_state.md R42, 20_memory.md R85). -/
  popping : ∀ n, s.portC = .popBusy n → 1 ≤ n ∧ n < 2 ^ 30 ∧ poppedTotal s + n ≤ pushedSeen s
  /-- Every live slot holds a frame (20_memory.md R83). -/
  written : ∀ i, i < used s.cfg s.head s.tail → memRead s.slot (wrap s.cfg (s.tail + i)) ≠ none

/-- Does the environment keep the port discipline with the next move: the right port, an idle port, a payload of the right length
(60_exceptions.md R190, 70_reset_and_hazards.md R212). -/
def disciplined (s : State) : Bool :=
  match nextMove s with
  | some (.present port word src _) =>
    match decode word with
    | .ok (.push count) => decide (port = .p ∧ s.portP = .idle ∧ src.length = count)
    | .ok (.pop _) => decide (port = .c ∧ s.portC = .idle)
    | .ok .reset => decide (port = .m ∧ s.portP = .idle ∧ s.portC = .idle)
    | .error _ => false
  | _ => true

/-! The block with every frame replaced: what it does must not depend on the frames' bits (20_memory.md R86). -/

def Result.mapFrames (g : Frame → Frame) : Result → Result
  | .ack => .ack
  | .popped n fs => .popped n (fs.map g)

def Move.mapFrames (g : Frame → Frame) : Move → Move
  | .present port word src draw => .present port word (src.map g) draw
  | .completeP => .completeP
  | .completeC => .completeC

def PhaseP.mapFrames (g : Frame → Frame) : PhaseP → PhaseP
  | .idle => .idle
  | .pushBusy n fs => .pushBusy n (fs.map g)

/-- Every frame in the state replaced by `g`: in the slots, in flight, on the bus, in what the environment will present and in the
results. -/
def State.mapFrames (g : Frame → Frame) (s : State) : State :=
  { s with
    slot := s.slot.map fun e => (e.1, g e.2)
    portP := s.portP.mapFrames g
    schedule := s.schedule.map (Move.mapFrames g)
    bus := { s.bus with src := s.bus.src.map g }
    resultsP := s.resultsP.map (Result.mapFrames g)
    resultsC := s.resultsC.map (Result.mapFrames g)
    resultsM := s.resultsM.map (Result.mapFrames g) }

/-- The same on an outcome. -/
def mapOutcome (g : Frame → Frame) : Out → Out
  | .next s => .next (s.mapFrames g)
  | .fault r => .fault r
  | .refused r => .refused r

end Sys2Proof.Machine
end

