-- ==== Sys2Proof/Certificates/Slice0/Obligations.lean ====
section
/-! DEFINITION. The statements for the provers. Each docstring says which rule of spec/ the statement formalises. -/

open Sys2Proof Sys2Proof.Machine

/-! ## Encoding (30_encoding.md) -/

/-- R101, R102, R107: decoding the word of a well-formed command gives the command back. -/
def Obligations.DecodeEncodeAgree : Prop :=
  ∀ i : Instr, i.wf = true → decode (encode i) = .ok i

/-- R102, R107: each word has one meaning; a decoded command is well formed and its encoding is the word it came from. -/
def Obligations.EncodeDecodeAgree : Prop :=
  ∀ (w : Word) (i : Instr), decode w = .ok i → i.wf = true ∧ encode i = w

/-- R107: the decoder's four lines, on the fields as numbers: `OP` is the word divided by 2^30 and `N` the remainder. -/
def Obligations.DecodeReadsOpAndCount : Prop :=
  ∀ w : Word,
    (w.toNat / 2 ^ 30 = 1 → decode w = .ok (.push (w.toNat % 2 ^ 30))) ∧
    (w.toNat / 2 ^ 30 = 2 → decode w = .ok (.pop (w.toNat % 2 ^ 30))) ∧
    (w.toNat / 2 ^ 30 = 3 → w.toNat % 2 ^ 30 = 0 → decode w = .ok .reset) ∧
    (w.toNat / 2 ^ 30 = 3 → w.toNat % 2 ^ 30 ≠ 0 → ∃ e, decode w = .error e) ∧
    (w.toNat / 2 ^ 30 = 0 → ∃ e, decode w = .error e)

/-- R102: the match and mask pairs of the opcode table and the port of each row (R111). -/
def Obligations.MatchMaskTable : Prop :=
  (∀ w : Word, w &&& 0xC0000000#32 = 0x40000000#32 ↔ ∃ n, decode w = .ok (.push n)) ∧
  (∀ w : Word, w &&& 0xC0000000#32 = 0x80000000#32 ↔ ∃ n, decode w = .ok (.pop n)) ∧
  (∀ w : Word, w &&& 0xFFFFFFFF#32 = 0xC0000000#32 ↔ decode w = .ok .reset) ∧
  (∀ n, portOf (.push n) = .p) ∧ (∀ n, portOf (.pop n) = .c) ∧ portOf .reset = .m

/-- The decode vectors of 95_test_vectors.md, L2 (sanity). -/
def Obligations.DecodeVectors : Prop :=
  decode 0x40000005#32 = .ok (.push 5) ∧ decode 0x7FFFFFFF#32 = .ok (.push 1073741823) ∧
  decode 0x80000008#32 = .ok (.pop 8) ∧ decode 0xBFFFFFFF#32 = .ok (.pop 1073741823) ∧
  decode 0xC0000000#32 = .ok .reset ∧ decode 0xC0000001#32 = .error (.resetWithCount 1) ∧
  decode 0x3FFFFFFF#32 = .error (.reservedOp 1073741823)

/-! ## A step and its checks (60_exceptions.md) -/

/-- A STEP RUNS THE DECODED COMMAND: when the next move presents a word that decodes to `i`, the step is `exec i` on the state in
which the move is taken off the schedule and its port, word, payload and draw are on the bus (R172). -/
def Obligations.StepRunsDecodedCommand : Prop :=
  ∀ (s : State) (port : Port) (w : Word) (src : List Frame) (draw : Nat) (rest : List Move) (i : Instr),
    s.schedule = .present port w src draw :: rest → decode w = .ok i →
      step s = exec i { s with schedule := rest, bus := ⟨port, w, src, draw⟩ }

/-- R172: the order of the checks. The first that applies is the fault raised, and only the fault register is written; when none
applies a step that answers raises no fault. -/
def Obligations.ChecksRunInOrder : Prop :=
  ∀ (s s0 : State) (port : Port) (w : Word) (src : List Frame) (draw : Nat) (rest : List Move),
    StepsEnabled s → s.schedule = .present port w src draw :: rest →
    s0 = { s with schedule := rest, bus := ⟨port, w, src, draw⟩ } →
      (∀ e, decode w = .error e → step s = .next { s0 with fault := .illegalCommand }) ∧
      (∀ i, decode w = .ok i → port ≠ portOf i → step s = .next { s0 with fault := .wrongPort }) ∧
      (∀ count, decode w = .ok (.push count) → port = .p →
        (s.portP ≠ .idle → step s = .next { s0 with fault := .portBusy }) ∧
        (s.portP = .idle → src.length ≠ count → step s = .next { s0 with fault := .payloadLength }) ∧
        (s.portP = .idle → src.length = count → ∀ s', step s = .next s' → s'.fault = .noFault)) ∧
      (∀ most, decode w = .ok (.pop most) → port = .c →
        (s.portC ≠ .idle → step s = .next { s0 with fault := .portBusy }) ∧
        (s.portC = .idle → ∀ s', step s = .next s' → s'.fault = .noFault)) ∧
      (decode w = .ok .reset → port = .m →
        (s.portP ≠ .idle ∨ s.portC ≠ .idle → step s = .next { s0 with fault := .resetBusy }) ∧
        (s.portP = .idle → s.portC = .idle → ∀ s', step s = .next s' → s'.fault = .noFault))

/-- R173: a word with OP 0, or with OP 3 and N not 0, raises ILLEGAL_COMMAND, code 1, on whatever port it is presented. -/
def Obligations.ReservedWordRaisesIllegalCommand : Prop :=
  faultNumber .illegalCommand = 1 ∧
  ∀ (s : State) (port : Port) (w : Word) (src : List Frame) (draw : Nat) (rest : List Move),
    StepsEnabled s → s.schedule = .present port w src draw :: rest →
    w.toNat / 2 ^ 30 = 0 ∨ (w.toNat / 2 ^ 30 = 3 ∧ w.toNat % 2 ^ 30 ≠ 0) →
      step s = .next { s with schedule := rest, bus := ⟨port, w, src, draw⟩, fault := .illegalCommand }

/-- R174: WRONG_PORT, code 2: a PUSH on port C or M, a POP on port P or M, a RESET on port P or C. -/
def Obligations.WrongPortRaised : Prop :=
  faultNumber .wrongPort = 2 ∧
  ∀ s : State, StepsEnabled s →
    (∀ n, s.bus.port = .c ∨ s.bus.port = .m → exec (.push n) s = .next { s with fault := .wrongPort }) ∧
    (∀ n, s.bus.port = .p ∨ s.bus.port = .m → exec (.pop n) s = .next { s with fault := .wrongPort }) ∧
    (s.bus.port = .p ∨ s.bus.port = .c → exec .reset s = .next { s with fault := .wrongPort })

/-- R175: PORT_BUSY, code 3: a PUSH on a busy port P (whatever its count and payload) or a POP on a busy port C. -/
def Obligations.PortBusyRaised : Prop :=
  faultNumber .portBusy = 3 ∧
  ∀ s : State, StepsEnabled s →
    (∀ n, s.bus.port = .p → s.portP ≠ .idle → exec (.push n) s = .next { s with fault := .portBusy }) ∧
    (∀ n, s.bus.port = .c → s.portC ≠ .idle → exec (.pop n) s = .next { s with fault := .portBusy })

/-- R176: RESET_BUSY, code 4: a RESET on port M while port P or port C is busy. -/
def Obligations.ResetBusyRaised : Prop :=
  faultNumber .resetBusy = 4 ∧
  ∀ s : State, StepsEnabled s → s.bus.port = .m → s.portP ≠ .idle ∨ s.portC ≠ .idle →
    exec .reset s = .next { s with fault := .resetBusy }

/-- R177: PAYLOAD_LENGTH, code 5: a PUSH whose payload does not hold exactly `count` frames. -/
def Obligations.PayloadLengthRaised : Prop :=
  faultNumber .payloadLength = 5 ∧
  ∀ (s : State) (count : Nat), StepsEnabled s → s.bus.port = .p → s.portP = .idle → s.bus.src.length ≠ count →
    exec (.push count) s = .next { s with fault := .payloadLength }

/-- R171: raising a fault changes the fault register only, from 0; the taken move and the driven bus are the model's own. -/
def Obligations.FaultingStepChangesOnlyFault : Prop :=
  ∀ s s' : State, step s = .next s' → s'.fault ≠ .noFault →
    s.fault = .noFault ∧ s' = { s with fault := s'.fault, schedule := s'.schedule, bus := s'.bus }

/-- R171: with the fault register not 0, no step is enabled and no command does anything: the fault is never cleared. -/
def Obligations.FaultedBlockTakesNoStep : Prop :=
  ∀ s : State, s.cfg.wf = true → s.fault ≠ .noFault →
    step s = .fault (.blockFaulted s.fault) ∧ ∀ i : Instr, exec i s = .fault (.blockFaulted s.fault)

/-- R10: a configuration with `K = 0` is refused, by every step and every command. -/
def Obligations.ZeroCapacityRefused : Prop :=
  ∀ s : State, s.cfg.capacityLog2 = 0 →
    step s = .refused .zeroCapacity ∧ ∀ i : Instr, exec i s = .refused .zeroCapacity

/-! ## Snapshots (20_memory.md section 3) -/

/-- R72: what `ViewTail` may answer: exactly the entries of the window, each for some draw, with `pSeen` moved there. -/
def Obligations.ProducerSnapshotDraws : Prop :=
  (∀ (s : State) (j t : Nat), s.pSeen < s.tailHist.length → ProducerMaySee s j t →
    ∃ d, viewTail { s with bus := { s.bus with draw := d } } =
      some (t, { s with bus := { s.bus with draw := d }, pSeen := j })) ∧
  (∀ s : State, s.pSeen < s.tailHist.length →
    ∃ j t, ProducerMaySee s j t ∧ viewTail s = some (t, { s with pSeen := j }))

/-- R73: what `ViewHead` may answer. -/
def Obligations.ConsumerSnapshotDraws : Prop :=
  (∀ (s : State) (j h : Nat), s.cSeen < s.headHist.length → ConsumerMaySee s j h →
    ∃ d, viewHead { s with bus := { s.bus with draw := d } } =
      some (h, { s with bus := { s.bus with draw := d }, cSeen := j })) ∧
  (∀ s : State, s.cSeen < s.headHist.length →
    ∃ j h, ConsumerMaySee s j h ∧ viewHead s = some (h, { s with cSeen := j }))

/-- R72, R73 and log 11: where the draw has no value, a command that takes a snapshot stops by name. With stale views that is a view
at or beyond the end of the history, without them it is an empty history; the invariant excludes both (R44). -/
def Obligations.ViewBeyondHistoryStops : Prop :=
  ∀ (s : State) (n : Nat), StepsEnabled s → 1 ≤ n →
    (s.bus.port = .p → s.portP = .idle → s.bus.src.length = n →
      (s.cfg.staleViews = true ∧ s.tailHist.length ≤ s.pSeen) ∨ (s.cfg.staleViews = false ∧ s.tailHist = []) →
        exec (.push n) s = .fault .noView) ∧
    (s.bus.port = .c → s.portC = .idle →
      (s.cfg.staleViews = true ∧ s.headHist.length ≤ s.cSeen) ∨ (s.cfg.staleViews = false ∧ s.headHist = []) →
        exec (.pop n) s = .fault .noView)

/-- R77: an agent's view never goes back, except that a RESET sets both views to 0. -/
def Obligations.ViewsNeverGoBack : Prop :=
  ∀ s s' : State, RingInv s → step s = .next s' →
    (resets s = false → s.pSeen ≤ s'.pSeen ∧ s.cSeen ≤ s'.cSeen) ∧
    (resets s = true → s'.pSeen = 0 ∧ s'.cSeen = 0 ∧ s'.headHist = [0] ∧ s'.tailHist = [0])

/-- R88: the free space a PUSH computes is at most the true free space, the available count a POP computes at most the true number
of live frames; without stale views they are the true ones. -/
def Obligations.SnapshotsAreConservative : Prop :=
  ∀ s s1 : State, RingInv s →
    (∀ t, viewTail s = some (t, s1) →
      free s.cfg s.head t ≤ free s.cfg s.head s.tail ∧
      (s.cfg.staleViews = false → free s.cfg s.head t = free s.cfg s.head s.tail)) ∧
    (∀ h, viewHead s = some (h, s1) →
      available s.cfg h s.tail ≤ used s.cfg s.head s.tail ∧
      (s.cfg.staleViews = false → available s.cfg h s.tail = used s.cfg s.head s.tail))

/-! ## PUSH (40_push.md) -/

/-- R121: a PUSH with count 0 answers ACK and changes nothing else; no snapshot is taken. -/
def Obligations.PushOfNothingIsNoOp : Prop :=
  ∀ s : State, StepsEnabled s → s.bus.port = .p → s.portP = .idle → s.bus.src = [] →
    exec (.push 0) s = .next { s with resultsP := s.resultsP ++ [.ack] }

/-- R123: the issue step of a PUSH with a count of at least 1, for the view it draws: `pSeen` always moves; the first
`min(count, C - 1 - (head - t) mod C)` frames go into flight, and with none the command answers ACK. -/
def Obligations.PushIssueKeepsWhatFits : Prop :=
  ∀ (s : State) (count : Nat), StepsEnabled s → s.bus.port = .p → s.portP = .idle → s.bus.src.length = count → 1 ≤ count →
    s.pSeen < s.tailHist.length →
      ∃ j t n, ProducerMaySee s j t ∧
        n = min count (s.cfg.capacity - 1 - (s.head + s.cfg.capacity - t) % s.cfg.capacity) ∧
        exec (.push count) s =
          .next (if n = 0 then { s with pSeen := j, resultsP := s.resultsP ++ [.ack] }
            else { s with pSeen := j, portP := .pushBusy n (s.bus.src.take n) })

/-- R124: a PUSH that finds no free space drops the whole batch and answers ACK; only `pSeen` moves, no fault is raised and the
port stays idle. A ring that IS full drops it under every view. -/
def Obligations.FullRingDropsWholeBatch : Prop :=
  ∀ (s : State) (count : Nat), StepsEnabled s → s.bus.port = .p → s.portP = .idle → s.bus.src.length = count → 1 ≤ count →
    (∀ t s1, viewTail s = some (t, s1) → free s.cfg s.head t = 0 →
      exec (.push count) s = .next { s with pSeen := s1.pSeen, resultsP := s.resultsP ++ [.ack] }) ∧
    (RingInv s → isFull s = true →
      ∃ j, exec (.push count) s = .next { s with pSeen := j, resultsP := s.resultsP ++ [.ack] })

/-- R125: the completion step of a PUSH: frame `i` is in slot `(head + i) mod C`, every byte outside those slots reads as before,
`head` moves on by `n` and is published, the port is idle, the result is ACK, and nothing else changes. -/
def Obligations.PushCompletionStores : Prop :=
  ∀ (s : State) (n : Nat) (fs : List Frame) (rest : List Move), StepsEnabled s → s.schedule = .completeP :: rest →
    s.portP = .pushBusy n fs → 1 ≤ n → n ≤ s.cfg.capacity - 1 → fs.length = n →
      ∃ m : Memory,
        step s = .next { s with
          slot := m
          head := (s.head + n) % s.cfg.capacity
          headHist := s.headHist ++ [(s.head + n) % s.cfg.capacity]
          portP := .idle
          resultsP := s.resultsP ++ [.ack]
          schedule := rest } ∧
        (∀ i, i < n → memRead m ((s.head + i) % s.cfg.capacity) = fs[i]?) ∧
        (∀ a, (∀ i, i < n → a / 8 ≠ (s.head + i) % s.cfg.capacity) → memByte m a = memByte s.slot a)

/-- The frame of PUSH's issue step (R46, R78): it writes `pSeen`, port P's phase, port P's results or the fault register, and every
byte of the slot space reads as before. -/
def Obligations.PushIssueFrame : Prop :=
  ∀ (s s' : State) (count : Nat), exec (.push count) s = .next s' →
    s' = { s with pSeen := s'.pSeen, portP := s'.portP, resultsP := s'.resultsP, fault := s'.fault } ∧
    ∀ a, memByte s'.slot a = memByte s.slot a

/-- R126: a PUSH run to its end keeps exactly the first `min(count, free)` frames of its batch, in order, behind the frames that
were live, which are untouched; the rest of the batch is nowhere. When none fits the PUSH is done at issue (R13, R124), and the second
move asks an idle port P to complete, which R125 does not enable: that such a move is only used up is THE MODEL'S CHOICE (log 3),
stated in `SilentEnvironmentFinishes`. -/
def Obligations.PushKeepsFirstFramesInOrder : Prop :=
  ∀ (s : State) (count : Nat) (w : Word) (src : List Frame) (draw : Nat) (rest : List Move),
    RingInv s → StepsEnabled s → s.portP = .idle → decode w = .ok (.push count) → src.length = count → 1 ≤ count →
    s.schedule = .present .p w src draw :: .completeP :: rest →
      ∃ j t s', ProducerMaySee s j t ∧ runSteps 2 s = .next s' ∧
        live s' = live s ++ (src.take (min count (free s.cfg s.head t))).map some ∧
        s'.portP = .idle ∧ s'.resultsP = s.resultsP ++ [.ack] ∧ s'.tail = s.tail ∧ s'.fault = .noFault ∧ s'.schedule = rest

/-- R130: pushing `C` or more frames into an empty ring, without stale views, keeps exactly the first `C - 1` and fills the ring. -/
def Obligations.OversizePushFillsEmptyRing : Prop :=
  ∀ (s : State) (src : List Frame) (draw : Nat) (rest : List Move),
    RingInv s → StepsEnabled s → s.cfg.staleViews = false → s.portP = .idle → isEmpty s = true →
    s.cfg.capacity ≤ src.length → src.length < 2 ^ 30 → s.schedule = callPush src draw :: .completeP :: rest →
      ∃ s', runSteps 2 s = .next s' ∧ live s' = (src.take (s.cfg.capacity - 1)).map some ∧ isFull s' = true

/-! ## POP (41_pop.md) -/

/-- R141: a POP with maximum 0 answers (0, []) and changes nothing else; no snapshot is taken. -/
def Obligations.PopOfNothingIsNoOp : Prop :=
  ∀ s : State, StepsEnabled s → s.bus.port = .c → s.portC = .idle →
    exec (.pop 0) s = .next { s with resultsC := s.resultsC ++ [.popped 0#32 []] }

/-- R143: the issue step of a POP with a maximum of at least 1, for the view it draws: `cSeen` always moves;
`min((h - tail) mod C, maxCount)` frames are to be read, and with none the result is (0, []). -/
def Obligations.PopIssueTakesWhatIsThere : Prop :=
  ∀ (s : State) (most : Nat), StepsEnabled s → s.bus.port = .c → s.portC = .idle → 1 ≤ most →
    s.cSeen < s.headHist.length →
      ∃ j h n, ConsumerMaySee s j h ∧ n = min ((h + s.cfg.capacity - s.tail) % s.cfg.capacity) most ∧
        exec (.pop most) s =
          .next (if n = 0 then { s with cSeen := j, resultsC := s.resultsC ++ [.popped 0#32 []] }
            else { s with cSeen := j, portC := .popBusy n })

/-- R144: a POP that finds nothing available answers (0, []) and leaves the indices unchanged; no fault. A ring that IS empty gives
that result under every view. -/
def Obligations.EmptyRingPopsNothing : Prop :=
  ∀ (s : State) (most : Nat), StepsEnabled s → s.bus.port = .c → s.portC = .idle → 1 ≤ most →
    (∀ h s1, viewHead s = some (h, s1) → available s.cfg h s.tail = 0 →
      exec (.pop most) s = .next { s with cSeen := s1.cSeen, resultsC := s.resultsC ++ [.popped 0#32 []] }) ∧
    (RingInv s → isEmpty s = true →
      ∃ j, exec (.pop most) s = .next { s with cSeen := j, resultsC := s.resultsC ++ [.popped 0#32 []] })

/-- R145: the completion step of a POP: with a frame in every slot `(tail + i) mod C`, those frames are returned in order, `tail`
moves on by `n` and is published, the port is idle and nothing else changes, the slots included; with a slot that holds nothing,
UNWRITTEN_SLOT is raised and nothing else changes. -/
def Obligations.PopCompletionReturns : Prop :=
  ∀ (s : State) (n : Nat) (rest : List Move), StepsEnabled s → s.schedule = .completeC :: rest → s.portC = .popBusy n →
    (∀ fs : List Frame, fs.length = n → (∀ i, i < n → memRead s.slot ((s.tail + i) % s.cfg.capacity) = fs[i]?) →
      step s = .next { s with
        tail := (s.tail + n) % s.cfg.capacity
        tailHist := s.tailHist ++ [(s.tail + n) % s.cfg.capacity]
        portC := .idle
        resultsC := s.resultsC ++ [.popped (BitVec.ofNat 32 n) fs]
        schedule := rest }) ∧
    ((∃ i, i < n ∧ memRead s.slot ((s.tail + i) % s.cfg.capacity) = none) →
      step s = .next { s with fault := .unwrittenSlot, schedule := rest })

/-- The frame of POP's issue step (R46, R78): it writes `cSeen`, port C's phase, port C's results or the fault register, and every
byte of the slot space reads as before. -/
def Obligations.PopIssueFrame : Prop :=
  ∀ (s s' : State) (most : Nat), exec (.pop most) s = .next s' →
    s' = { s with cSeen := s'.cSeen, portC := s'.portC, resultsC := s'.resultsC, fault := s'.fault } ∧
    ∀ a, memByte s'.slot a = memByte s.slot a

/-- R146: a POP run to its end returns the `n` oldest live frames in the order they were pushed, and those are no longer live. With
`n = 0` the POP is done at issue (R13, R144), and the second move asks an idle port C to complete, which R145 does not enable: that
such a move is only used up is THE MODEL'S CHOICE (log 3), stated in `SilentEnvironmentFinishes`. That a payload `src` presented with
the POP has no effect is the model's inference (log 9): R104 gives a POP none. -/
def Obligations.PopReturnsOldestFrames : Prop :=
  ∀ (s : State) (most : Nat) (w : Word) (src : List Frame) (draw : Nat) (rest : List Move),
    RingInv s → StepsEnabled s → s.portC = .idle → decode w = .ok (.pop most) → 1 ≤ most →
    s.schedule = .present .c w src draw :: .completeC :: rest →
      ∃ j h s' fs, ConsumerMaySee s j h ∧ runSteps 2 s = .next s' ∧
        fs.length = min (available s.cfg h s.tail) most ∧ live s = fs.map some ++ live s' ∧
        s'.resultsC = s.resultsC ++ [.popped (BitVec.ofNat 32 fs.length) fs] ∧
        s'.portC = .idle ∧ s'.head = s.head ∧ s'.slot = s.slot ∧ s'.fault = .noFault ∧ s'.schedule = rest

/-! ## RESET (42_reset.md) -/

/-- R161: RESET with both ports idle sets indices, histories and views to their first values, answers ACK and changes nothing else,
the slots included; with a busy port it raises RESET_BUSY. -/
def Obligations.ResetEmptiesRing : Prop :=
  ∀ s : State, StepsEnabled s → s.bus.port = .m →
    (s.portP = .idle → s.portC = .idle →
      exec .reset s = .next { s with
        head := 0
        tail := 0
        headHist := [0]
        tailHist := [0]
        pSeen := 0
        cSeen := 0
        resultsM := s.resultsM ++ [.ack] }) ∧
    (s.portP ≠ .idle ∨ s.portC ≠ .idle → exec .reset s = .next { s with fault := .resetBusy })

/-- The frame of RESET (R161, R201): every byte of the slot space reads as before, and only indices, histories, views, port M's
results or the fault register change. -/
def Obligations.ResetFrame : Prop :=
  ∀ s s' : State, exec .reset s = .next s' →
    s' = { s with
      head := s'.head
      tail := s'.tail
      headHist := s'.headHist
      tailHist := s'.tailHist
      pSeen := s'.pSeen
      cSeen := s'.cSeen
      resultsM := s'.resultsM
      fault := s'.fault } ∧
    ∀ a, memByte s'.slot a = memByte s.slot a

/-- R69: a second RESET with nothing in between leaves the state as the first left it, but for its own ACK. -/
def Obligations.ResetIsIdempotent : Prop :=
  ∀ s s1 : State, StepsEnabled s → s.bus.port = .m → s.portP = .idle → s.portC = .idle → exec .reset s = .next s1 →
    exec .reset s1 = .next { s1 with resultsM := s1.resultsM ++ [.ack] }

/-- R163: after a RESET that is carried out the ring is empty, the next POP returns (0, []) and the next PUSH sees free space
`C - 1`, under every draw. -/
def Obligations.AfterResetNothingIsLive : Prop :=
  ∀ s s1 : State, StepsEnabled s → s.bus.port = .m → s.portP = .idle → s.portC = .idle → exec .reset s = .next s1 →
    live s1 = [] ∧
    (∀ (b : Bus) (most : Nat), b.port = .c →
      exec (.pop most) { s1 with bus := b } = .next { s1 with bus := b, resultsC := s1.resultsC ++ [.popped 0#32 []] }) ∧
    (∀ (b : Bus) (n : Nat), b.port = .p → b.src.length = n → 1 ≤ n →
      exec (.push n) { s1 with bus := b } =
        .next { s1 with
          bus := b
          portP := .pushBusy (min n (s.cfg.capacity - 1)) (b.src.take (min n (s.cfg.capacity - 1))) })

/-! ## Power-on (10_state.md R47) -/

/-- R47: every piece of state at power-on, for every configuration and every environment. -/
def Obligations.PowerOnValues : Prop :=
  ∀ (c : Config) (moves : List Move) (s : State), s = State.powerOn c moves →
    (∀ a, memRead s.slot a = none) ∧ s.head = 0 ∧ s.tail = 0 ∧ s.portP = .idle ∧ s.portC = .idle ∧
    s.headHist = [0] ∧ s.tailHist = [0] ∧ s.pSeen = 0 ∧ s.cSeen = 0 ∧ faultNumber s.fault = 0 ∧
    isEmpty s = true ∧ s.cfg = c ∧ s.schedule = moves

/-- THE MODEL'S CHOICE (log 1, log 2): the state the host starts from is the power-on state with `K = 3`, stale views and a silent
environment. -/
def Obligations.ResetIsPowerOnOfVectors : Prop :=
  State.reset = State.powerOn ⟨3, true⟩ []

/-- The invariant holds at power-on, for every configuration with `K >= 1` and every environment, and so at `State.reset`. -/
def Obligations.InvariantAtPowerOn : Prop :=
  (∀ (c : Config) (moves : List Move), c.wf = true → RingInv (State.powerOn c moves)) ∧ RingInv State.reset

/-! ## Storage and frames (20_memory.md sections 1 and 2) -/

/-- R65: byte `j` of a frame is its bits `8j+7` to `8j`, bytes 0 to 3 are the left sample, least significant first, bytes 4 to 7 the
right sample, and the 8 bytes give the frame back (R64). -/
def Obligations.FrameBytesAreLittleEndian : Prop :=
  (∀ (f : Frame) (j : Nat), j < 8 → (frameByte f j).toNat = f.toNat / 2 ^ (8 * j) % 2 ^ 8) ∧
  (∀ f : Frame, leNumber ((frameBytes f).take 4) = (leftSample f).toNat ∧
    leNumber ((frameBytes f).drop 4) = (rightSample f).toNat) ∧
  (∀ f : Frame, frameOfBytes (frameBytes f) = f) ∧
  (∀ l r : Sample, leftSample (frameOf l r) = l ∧ rightSample (frameOf l r) = r)

/-- R62, R63: the slots of a transfer are at most two runs of consecutive slots. -/
def Obligations.TransferIsAtMostTwoRuns : Prop :=
  ∀ (c : Config) (b n : Nat), b < c.capacity → 1 ≤ n → n ≤ c.capacity - 1 →
    slotRun c b n =
      List.range' b (min (b + n) c.capacity - b) ++
        (if c.capacity < b + n then List.range' 0 (b + n - c.capacity) else [])

/-- R89: the frames of a transfer may be stored in any order; the storage is the same. -/
def Obligations.CopyOrderIsUnobservable : Prop :=
  ∀ (c : Config) (m : Memory) (b n : Nat) (fs : List Frame) (order : List (Nat × Frame)),
    m.wf c.capacity → n ≤ c.capacity - 1 → fs.length = n → List.Perm order ((slotRun c b n).zip fs) →
      storeAll m (order.map Prod.fst) (order.map Prod.snd) = storeAll m (slotRun c b n) fs

/-- R37, R36: at most `C - 1` frames are live; the ring is empty when none is and full when `C - 1` are. -/
def Obligations.LiveCountAndPredicates : Prop :=
  ∀ s : State, RingInv s →
    (live s).length = used s.cfg s.head s.tail ∧ (live s).length ≤ s.cfg.capacity - 1 ∧
    (isEmpty s = true ↔ live s = []) ∧ (isFull s = true ↔ (live s).length = s.cfg.capacity - 1)

/-! ## Invariants and whole-machine rules -/

/-- Every step keeps the invariant (R83, R84, R33, R34, R41, R42, R44). -/
def Obligations.StepKeepsInvariant : Prop :=
  ∀ s s' : State, RingInv s → step s = .next s' → RingInv s'

/-- R84: in every state a run from power-on reaches, `T_v <= T <= H_v <= H` and `H - T_v <= C - 1`; the registers are the totals
modulo `C`, and a difference of indices, for every entry an agent may still see, is the true difference. The totals are measured
along the histories; `TotalsCountTransfers` says that they count frames. -/
def Obligations.ViewsLagWithinOneLap : Prop :=
  ∀ (c : Config) (moves : List Move) (k : Nat) (s : State), c.wf = true → runSteps k (State.powerOn c moves) = .next s →
    poppedSeen s ≤ poppedTotal s ∧ poppedTotal s ≤ pushedSeen s ∧ pushedSeen s ≤ pushedTotal s ∧
    pushedTotal s - poppedSeen s ≤ s.cfg.capacity - 1 ∧
    s.head = pushedTotal s % s.cfg.capacity ∧ s.tail = poppedTotal s % s.cfg.capacity ∧
    (∀ j h, s.cSeen ≤ j → s.headHist[j]? = some h →
      used s.cfg h s.tail = travelled s.cfg s.headHist j - poppedTotal s) ∧
    (∀ j t, s.pSeen ≤ j → s.tailHist[j]? = some t →
      used s.cfg s.head t = pushedTotal s - travelled s.cfg s.tailHist j)

/-- The totals of R84 count frames: a PUSH completion adds what it stores to `H`, a POP completion what it returns to `T`, a RESET
sets both to 0, and nothing else changes them. -/
def Obligations.TotalsCountTransfers : Prop :=
  ∀ s s' : State, RingInv s → step s = .next s' →
    (resets s = true → pushedTotal s' = 0 ∧ poppedTotal s' = 0) ∧
    (resets s = false → pushedTotal s' = pushedTotal s + (accepts s).length ∧
      ∃ new, returnedIn s'.resultsC = returnedIn s.resultsC ++ new ∧ poppedTotal s' = poppedTotal s + new.length)

/-- R83: in every state a run from power-on reaches, every live slot holds a frame. -/
def Obligations.LiveSlotsAreWritten : Prop :=
  ∀ (c : Config) (moves : List Move) (k : Nat) (s : State), c.wf = true → runSteps k (State.powerOn c moves) = .next s →
    s.fault = .noFault → ∀ i, i < used s.cfg s.head s.tail → memRead s.slot ((s.tail + i) % s.cfg.capacity) ≠ none

/-- R178: no run from power-on raises UNWRITTEN_SLOT. -/
def Obligations.UnwrittenSlotIsUnreachable : Prop :=
  ∀ (c : Config) (moves : List Move) (k : Nat) (s : State), c.wf = true → runSteps k (State.powerOn c moves) = .next s →
    s.fault ≠ .unwrittenSlot

/-- R85: no step writes a live slot, or a slot a busy POP is about to read. -/
def Obligations.NoStepOverrunsLiveSlots : Prop :=
  ∀ s s' : State, RingInv s → step s = .next s' →
    (∀ i, i < used s.cfg s.head s.tail →
      memRead s'.slot (wrap s.cfg (s.tail + i)) = memRead s.slot (wrap s.cfg (s.tail + i))) ∧
    (∀ n, s.portC = .popBusy n →
      n ≤ used s.cfg s.head s.tail ∧
      ∀ i, i < n → memRead s'.slot (wrap s.cfg (s.tail + i)) = memRead s.slot (wrap s.cfg (s.tail + i)))

/-- R86: FIFO order and bit-exactness over any run without RESET, from any state of the invariant: what was live followed by what
PUSHes stored is what POPs returned followed by what is live. -/
def Obligations.RingIsFifo : Prop :=
  ∀ (k : Nat) (s s' : State), RingInv s → runSteps k s = .next s' → noResetOver k s = true →
    ∃ new : List Frame, returnedIn s'.resultsC = returnedIn s.resultsC ++ new ∧
      live s ++ (acceptedOver k s).map some = new.map some ++ live s'

/-- R87: conservation over any run without RESET: frames given to PUSHes minus frames dropped are the frames returned plus those
still live or in flight, less those live or in flight at the start. -/
def Obligations.FramesAreConserved : Prop :=
  ∀ (k : Nat) (s s' : State), RingInv s → runSteps k s = .next s' → noResetOver k s = true →
    ∃ new : List Frame, returnedIn s'.resultsC = returnedIn s.resultsC ++ new ∧
      (live s).length + inFlight s + offeredOver k s =
        droppedOver k s + new.length + (live s').length + inFlight s'

/-- R86 and 92_eei_decisions.md D23: the block never looks inside a frame. Replacing every frame by its image under any function
commutes with a step, so nothing but frames carries frames' bits. -/
def Obligations.StepIgnoresFrameBits : Prop :=
  ∀ (g : Frame → Frame) (s : State), step (s.mapFrames g) = mapOutcome g (step s)

/-- R78: single writer. `head` and its history are written only by port P's completion step and by RESET, `tail` and its history
only by port C's completion step and by RESET, the slots only by port P's completion step. -/
def Obligations.SingleWriter : Prop :=
  ∀ s s' : State, step s = .next s' →
    (s'.head ≠ s.head ∨ s'.headHist ≠ s.headHist → nextMove s = some .completeP ∨ resets s = true) ∧
    (s'.tail ≠ s.tail ∨ s'.tailHist ≠ s.tailHist → nextMove s = some .completeC ∨ resets s = true) ∧
    (s'.slot ≠ s.slot → nextMove s = some .completeP)

/-- R35: between two resets each write of an index moves it on by 1 to `C - 1`, modulo `C`. -/
def Obligations.IndicesOnlyAdvance : Prop :=
  ∀ s s' : State, RingInv s → step s = .next s' → resets s = false →
    (s'.headHist = s.headHist ∧ s'.head = s.head ∨
      ∃ n, 1 ≤ n ∧ n ≤ s.cfg.capacity - 1 ∧ s'.head = (s.head + n) % s.cfg.capacity ∧ s'.headHist = s.headHist ++ [s'.head]) ∧
    (s'.tailHist = s.tailHist ∧ s'.tail = s.tail ∨
      ∃ n, 1 ≤ n ∧ n ≤ s.cfg.capacity - 1 ∧ s'.tail = (s.tail + n) % s.cfg.capacity ∧ s'.tailHist = s.tailHist ++ [s'.tail])

/-- R31, R105, R180: no step changes the configuration; a step returns at most one result on each port and takes none back; ports P
and M only ever get ACK, so the producer is never told of an error. -/
def Obligations.ResultsAreAppended : Prop :=
  ∀ s s' : State, step s = .next s' →
    s'.cfg = s.cfg ∧
    (s'.resultsP = s.resultsP ∨ s'.resultsP = s.resultsP ++ [.ack]) ∧
    (s'.resultsM = s.resultsM ∨ s'.resultsM = s.resultsM ++ [.ack]) ∧
    (s'.resultsC = s.resultsC ∨
      ∃ fs : List Frame, s'.resultsC = s.resultsC ++ [.popped (BitVec.ofNat 32 fs.length) fs])

/-- R190, R179, R128: in an environment that keeps the port discipline every step is taken and raises no fault, whatever the ring
holds and whatever the snapshots draw. The discipline of these rules is about commands. That a step is also taken when no move is
left, or when a completion is asked of an idle port, is THE MODEL'S CHOICE (log 3, stated in `SilentEnvironmentFinishes`); that a
payload presented with a POP or a RESET has no effect is the model's inference (log 9) beside R104. -/
def Obligations.DisciplineExcludesFaults : Prop :=
  ∀ s : State, RingInv s → StepsEnabled s → disciplined s = true → ∃ s', step s = .next s' ∧ s'.fault = .noFault

/-- R202, R171: while a port is busy and there is no fault its completion step is enabled. A step other than that completion keeps the
port's phase; if it raises no fault the completion stays enabled, and if it raises one (RESET_BUSY in program P5, PORT_BUSY in V-P15)
the completion is disabled. -/
def Obligations.BusyPortsStayEnabled : Prop :=
  ∀ s : State, RingInv s → StepsEnabled s →
    (s.portP ≠ .idle → ∃ s', step { s with schedule := .completeP :: s.schedule } = .next s' ∧
      s'.portP = .idle ∧ s'.fault = .noFault ∧ s'.resultsP = s.resultsP ++ [.ack]) ∧
    (s.portC ≠ .idle → ∃ s' r, step { s with schedule := .completeC :: s.schedule } = .next s' ∧
      s'.portC = .idle ∧ s'.fault = .noFault ∧ s'.resultsC = s.resultsC ++ [r]) ∧
    (∀ s', step s = .next s' →
      (nextMove s ≠ some .completeP → s.portP ≠ .idle → s'.portP = s.portP ∧
        (s'.fault = .noFault → ∃ t, step { s' with schedule := .completeP :: s'.schedule } = .next t ∧
          t.portP = .idle ∧ t.fault = .noFault) ∧
        (s'.fault ≠ .noFault →
          step { s' with schedule := .completeP :: s'.schedule } = .fault (.blockFaulted s'.fault))) ∧
      (nextMove s ≠ some .completeC → s.portC ≠ .idle → s'.portC = s.portC ∧
        (s'.fault = .noFault → ∃ t, step { s' with schedule := .completeC :: s'.schedule } = .next t ∧
          t.portC = .idle ∧ t.fault = .noFault) ∧
        (s'.fault ≠ .noFault →
          step { s' with schedule := .completeC :: s'.schedule } = .fault (.blockFaulted s'.fault))))

/-- THE MODEL'S CHOICE (log 3). A completion asked of an idle port, which R125 and R145 do not enable, only uses up its move; a block
with nothing scheduled and nothing in flight idles; and, carrying the weak fairness of R202, a silent environment lets whatever is in
flight complete, within two steps. -/
def Obligations.SilentEnvironmentFinishes : Prop :=
  ∀ s : State, StepsEnabled s →
    (∀ rest, s.schedule = .completeP :: rest → s.portP = .idle → step s = .next { s with schedule := rest }) ∧
    (∀ rest, s.schedule = .completeC :: rest → s.portC = .idle → step s = .next { s with schedule := rest }) ∧
    (s.schedule = [] → s.portP = .idle → s.portC = .idle → step s = .next s) ∧
    (RingInv s → s.schedule = [] → ∃ s', runSteps 2 s = .next s' ∧ finished s' = true)

/-- The property quoted in R86: frames pushed into an empty ring that can hold them, popped without stale views, come back exactly,
bit for bit and in order, for every capacity; and the ring is empty again. With no frames to move both commands are done at issue
(R13), and the two completion moves find idle ports: that such a move is only used up is THE MODEL'S CHOICE (log 3), stated in
`SilentEnvironmentFinishes`. -/
def Obligations.PushThenPopIsIdentity : Prop :=
  ∀ (s : State) (src : List Frame) (most d e : Nat),
    RingInv s → StepsEnabled s → s.cfg.staleViews = false → s.portP = .idle → s.portC = .idle → isEmpty s = true →
    src.length < s.cfg.capacity → src.length ≤ most → most < 2 ^ 30 →
    s.schedule = [callPush src d, .completeP, callPop most e, .completeC] →
      ∃ s', runSteps 4 s = .next s' ∧ s'.resultsC = s.resultsC ++ [.popped (BitVec.ofNat 32 src.length) src] ∧
        isEmpty s' = true ∧ finished s' = true
end

