-- ==== Sys2Proof/Laws/State.lean ====
section
/-! SUPPORT. One lemma per field for each update of the state, so that no later proof unfolds one. -/

namespace Sys2Proof.Machine

/-! What `respond` leaves and adds. -/

@[simp] theorem respond_slot (port : Port) (r : Result) (s : State) : (respond port r s).slot = s.slot := by cases port <;> rfl
@[simp] theorem respond_head (port : Port) (r : Result) (s : State) : (respond port r s).head = s.head := by cases port <;> rfl
@[simp] theorem respond_tail (port : Port) (r : Result) (s : State) : (respond port r s).tail = s.tail := by cases port <;> rfl
@[simp] theorem respond_portP (port : Port) (r : Result) (s : State) : (respond port r s).portP = s.portP := by cases port <;> rfl
@[simp] theorem respond_portC (port : Port) (r : Result) (s : State) : (respond port r s).portC = s.portC := by cases port <;> rfl
@[simp] theorem respond_headHist (port : Port) (r : Result) (s : State) : (respond port r s).headHist = s.headHist := by cases port <;> rfl
@[simp] theorem respond_tailHist (port : Port) (r : Result) (s : State) : (respond port r s).tailHist = s.tailHist := by cases port <;> rfl
@[simp] theorem respond_pSeen (port : Port) (r : Result) (s : State) : (respond port r s).pSeen = s.pSeen := by cases port <;> rfl
@[simp] theorem respond_cSeen (port : Port) (r : Result) (s : State) : (respond port r s).cSeen = s.cSeen := by cases port <;> rfl
@[simp] theorem respond_fault (port : Port) (r : Result) (s : State) : (respond port r s).fault = s.fault := by cases port <;> rfl
@[simp] theorem respond_cfg (port : Port) (r : Result) (s : State) : (respond port r s).cfg = s.cfg := by cases port <;> rfl
@[simp] theorem respond_schedule (port : Port) (r : Result) (s : State) : (respond port r s).schedule = s.schedule := by cases port <;> rfl
@[simp] theorem respond_bus (port : Port) (r : Result) (s : State) : (respond port r s).bus = s.bus := by cases port <;> rfl
@[simp] theorem respond_p_resultsP (r : Result) (s : State) : (respond .p r s).resultsP = s.resultsP ++ [r] := rfl
@[simp] theorem respond_p_resultsC (r : Result) (s : State) : (respond .p r s).resultsC = s.resultsC := rfl
@[simp] theorem respond_p_resultsM (r : Result) (s : State) : (respond .p r s).resultsM = s.resultsM := rfl
@[simp] theorem respond_c_resultsP (r : Result) (s : State) : (respond .c r s).resultsP = s.resultsP := rfl
@[simp] theorem respond_c_resultsC (r : Result) (s : State) : (respond .c r s).resultsC = s.resultsC ++ [r] := rfl
@[simp] theorem respond_c_resultsM (r : Result) (s : State) : (respond .c r s).resultsM = s.resultsM := rfl
@[simp] theorem respond_m_resultsP (r : Result) (s : State) : (respond .m r s).resultsP = s.resultsP := rfl
@[simp] theorem respond_m_resultsC (r : Result) (s : State) : (respond .m r s).resultsC = s.resultsC := rfl
@[simp] theorem respond_m_resultsM (r : Result) (s : State) : (respond .m r s).resultsM = s.resultsM ++ [r] := rfl

/-! What `raiseFault` leaves and writes. -/

@[simp] theorem raiseFault_slot (code : FaultCode) (s : State) : (raiseFault code s).slot = s.slot := by unfold raiseFault; split <;> rfl
@[simp] theorem raiseFault_head (code : FaultCode) (s : State) : (raiseFault code s).head = s.head := by unfold raiseFault; split <;> rfl
@[simp] theorem raiseFault_tail (code : FaultCode) (s : State) : (raiseFault code s).tail = s.tail := by unfold raiseFault; split <;> rfl
@[simp] theorem raiseFault_portP (code : FaultCode) (s : State) : (raiseFault code s).portP = s.portP := by unfold raiseFault; split <;> rfl
@[simp] theorem raiseFault_portC (code : FaultCode) (s : State) : (raiseFault code s).portC = s.portC := by unfold raiseFault; split <;> rfl
@[simp] theorem raiseFault_headHist (code : FaultCode) (s : State) : (raiseFault code s).headHist = s.headHist := by unfold raiseFault; split <;> rfl
@[simp] theorem raiseFault_tailHist (code : FaultCode) (s : State) : (raiseFault code s).tailHist = s.tailHist := by unfold raiseFault; split <;> rfl
@[simp] theorem raiseFault_pSeen (code : FaultCode) (s : State) : (raiseFault code s).pSeen = s.pSeen := by unfold raiseFault; split <;> rfl
@[simp] theorem raiseFault_cSeen (code : FaultCode) (s : State) : (raiseFault code s).cSeen = s.cSeen := by unfold raiseFault; split <;> rfl
@[simp] theorem raiseFault_cfg (code : FaultCode) (s : State) : (raiseFault code s).cfg = s.cfg := by unfold raiseFault; split <;> rfl
@[simp] theorem raiseFault_schedule (code : FaultCode) (s : State) : (raiseFault code s).schedule = s.schedule := by unfold raiseFault; split <;> rfl
@[simp] theorem raiseFault_bus (code : FaultCode) (s : State) : (raiseFault code s).bus = s.bus := by unfold raiseFault; split <;> rfl
@[simp] theorem raiseFault_resultsP (code : FaultCode) (s : State) : (raiseFault code s).resultsP = s.resultsP := by unfold raiseFault; split <;> rfl
@[simp] theorem raiseFault_resultsC (code : FaultCode) (s : State) : (raiseFault code s).resultsC = s.resultsC := by unfold raiseFault; split <;> rfl
@[simp] theorem raiseFault_resultsM (code : FaultCode) (s : State) : (raiseFault code s).resultsM = s.resultsM := by unfold raiseFault; split <;> rfl
@[simp] theorem raiseFault_fault (code : FaultCode) (s : State) :
    (raiseFault code s).fault = if s.fault = .noFault then code else s.fault := by unfold raiseFault; split <;> simp_all

/-- Without an earlier fault, the fault register is written and nothing else. -/
theorem raiseFault_eq (code : FaultCode) (s : State) (h : s.fault = .noFault) :
    raiseFault code s = { s with fault := code } := by simp [raiseFault, h]

/-! What `takeMove` leaves and writes. -/

@[simp] theorem takeMove_slot (s : State) : (takeMove s).slot = s.slot := rfl
@[simp] theorem takeMove_head (s : State) : (takeMove s).head = s.head := rfl
@[simp] theorem takeMove_tail (s : State) : (takeMove s).tail = s.tail := rfl
@[simp] theorem takeMove_portP (s : State) : (takeMove s).portP = s.portP := rfl
@[simp] theorem takeMove_portC (s : State) : (takeMove s).portC = s.portC := rfl
@[simp] theorem takeMove_headHist (s : State) : (takeMove s).headHist = s.headHist := rfl
@[simp] theorem takeMove_tailHist (s : State) : (takeMove s).tailHist = s.tailHist := rfl
@[simp] theorem takeMove_pSeen (s : State) : (takeMove s).pSeen = s.pSeen := rfl
@[simp] theorem takeMove_cSeen (s : State) : (takeMove s).cSeen = s.cSeen := rfl
@[simp] theorem takeMove_fault (s : State) : (takeMove s).fault = s.fault := rfl
@[simp] theorem takeMove_cfg (s : State) : (takeMove s).cfg = s.cfg := rfl
@[simp] theorem takeMove_schedule (s : State) : (takeMove s).schedule = s.schedule.tail := rfl
@[simp] theorem takeMove_bus (s : State) : (takeMove s).bus = s.bus := rfl
@[simp] theorem takeMove_resultsP (s : State) : (takeMove s).resultsP = s.resultsP := rfl
@[simp] theorem takeMove_resultsC (s : State) : (takeMove s).resultsC = s.resultsC := rfl
@[simp] theorem takeMove_resultsM (s : State) : (takeMove s).resultsM = s.resultsM := rfl

/-! What `drive` leaves and writes. -/

@[simp] theorem drive_slot (port : Port) (word : Word) (src : List Frame) (draw : Nat) (s : State) : (drive port word src draw s).slot = s.slot := rfl
@[simp] theorem drive_head (port : Port) (word : Word) (src : List Frame) (draw : Nat) (s : State) : (drive port word src draw s).head = s.head := rfl
@[simp] theorem drive_tail (port : Port) (word : Word) (src : List Frame) (draw : Nat) (s : State) : (drive port word src draw s).tail = s.tail := rfl
@[simp] theorem drive_portP (port : Port) (word : Word) (src : List Frame) (draw : Nat) (s : State) : (drive port word src draw s).portP = s.portP := rfl
@[simp] theorem drive_portC (port : Port) (word : Word) (src : List Frame) (draw : Nat) (s : State) : (drive port word src draw s).portC = s.portC := rfl
@[simp] theorem drive_headHist (port : Port) (word : Word) (src : List Frame) (draw : Nat) (s : State) : (drive port word src draw s).headHist = s.headHist := rfl
@[simp] theorem drive_tailHist (port : Port) (word : Word) (src : List Frame) (draw : Nat) (s : State) : (drive port word src draw s).tailHist = s.tailHist := rfl
@[simp] theorem drive_pSeen (port : Port) (word : Word) (src : List Frame) (draw : Nat) (s : State) : (drive port word src draw s).pSeen = s.pSeen := rfl
@[simp] theorem drive_cSeen (port : Port) (word : Word) (src : List Frame) (draw : Nat) (s : State) : (drive port word src draw s).cSeen = s.cSeen := rfl
@[simp] theorem drive_fault (port : Port) (word : Word) (src : List Frame) (draw : Nat) (s : State) : (drive port word src draw s).fault = s.fault := rfl
@[simp] theorem drive_cfg (port : Port) (word : Word) (src : List Frame) (draw : Nat) (s : State) : (drive port word src draw s).cfg = s.cfg := rfl
@[simp] theorem drive_schedule (port : Port) (word : Word) (src : List Frame) (draw : Nat) (s : State) : (drive port word src draw s).schedule = s.schedule := rfl
@[simp] theorem drive_bus (port : Port) (word : Word) (src : List Frame) (draw : Nat) (s : State) : (drive port word src draw s).bus = ⟨port, word, src, draw⟩ := rfl
@[simp] theorem drive_resultsP (port : Port) (word : Word) (src : List Frame) (draw : Nat) (s : State) : (drive port word src draw s).resultsP = s.resultsP := rfl
@[simp] theorem drive_resultsC (port : Port) (word : Word) (src : List Frame) (draw : Nat) (s : State) : (drive port word src draw s).resultsC = s.resultsC := rfl
@[simp] theorem drive_resultsM (port : Port) (word : Word) (src : List Frame) (draw : Nat) (s : State) : (drive port word src draw s).resultsM = s.resultsM := rfl

end Sys2Proof.Machine
end

