-- ==== Sys2Proof/Laws/Views.lean ====
section
/-! SUPPORT. What a snapshot can answer (20_memory.md R72, R73). -/

namespace Sys2Proof.Machine

theorem snapshot_eq_some {stale : Bool} {d seen j v : Nat} {hist : List Nat} :
    snapshot stale d seen hist = some (j, v) ↔
      hist[j]? = some v ∧ j = if stale then seen + d % (hist.length - seen) else hist.length - 1 := by
  simp only [snapshot, Option.map_eq_some_iff, Prod.mk.injEq]
  constructor
  · rintro ⟨v, h, rfl, rfl⟩; exact ⟨h, rfl⟩
  · rintro ⟨h, rfl⟩; exact ⟨v, h, rfl, rfl⟩

/-- A view within the history always has a snapshot. -/
theorem exists_snapshot (stale : Bool) (d : Nat) {seen : Nat} {hist : List Nat} (h : seen < hist.length) :
    ∃ j v, snapshot stale d seen hist = some (j, v) := by
  have hj : (if stale then seen + d % (hist.length - seen) else hist.length - 1) < hist.length := by
    have := Nat.mod_lt d (show 0 < hist.length - seen by omega)
    split <;> omega
  exact ⟨_, _, snapshot_eq_some.2 ⟨List.getElem?_eq_getElem hj, rfl⟩⟩

/-- What `ViewTail` answers, if it answers. -/
theorem viewTail_eq_some {s s' : State} {t : Nat} (h : viewTail s = some (t, s')) :
    ∃ j, ProducerMaySee s j t ∧ s' = { s with pSeen := j } := by
  simp only [viewTail, Option.map_eq_some_iff, Prod.mk.injEq] at h
  obtain ⟨⟨j, v⟩, hs, rfl, rfl⟩ := h
  obtain ⟨h1, h2⟩ := snapshot_eq_some.1 hs
  refine ⟨j, ⟨h1, ?_⟩, rfl⟩
  split <;> simp_all

/-- What `ViewHead` answers, if it answers. -/
theorem viewHead_eq_some {s s' : State} {h : Nat} (hv : viewHead s = some (h, s')) :
    ∃ j, ConsumerMaySee s j h ∧ s' = { s with cSeen := j } := by
  simp only [viewHead, Option.map_eq_some_iff, Prod.mk.injEq] at hv
  obtain ⟨⟨j, v⟩, hs, rfl, rfl⟩ := hv
  obtain ⟨h1, h2⟩ := snapshot_eq_some.1 hs
  refine ⟨j, ⟨h1, ?_⟩, rfl⟩
  split <;> simp_all

theorem exists_viewTail {s : State} (h : s.pSeen < s.tailHist.length) : ∃ t s', viewTail s = some (t, s') := by
  obtain ⟨j, v, hs⟩ := exists_snapshot s.cfg.staleViews s.bus.draw h
  exact ⟨v, { s with pSeen := j }, by simp [viewTail, hs]⟩

theorem exists_viewHead {s : State} (h : s.cSeen < s.headHist.length) : ∃ v s', viewHead s = some (v, s') := by
  obtain ⟨j, v, hs⟩ := exists_snapshot s.cfg.staleViews s.bus.draw h
  exact ⟨v, { s with cSeen := j }, by simp [viewHead, hs]⟩

end Sys2Proof.Machine
end

