-- ==== Sys2Proof/Laws/Effects.lean ====
section
/-! SUPPORT. What the commands and the step can do, said once: one inversion lemma for each, citing which the later proofs need not
unfold the step again. -/

namespace Sys2Proof.Machine

theorem whenRunning_eq_next {s s' : State} {out : Out} :
    whenRunning s out = .next s' ↔ StepsEnabled s ∧ out = .next s' := by
  unfold whenRunning StepsEnabled
  split
  · simp_all
  · split <;> simp_all

/-- A block whose ports can step takes the step. -/
theorem whenRunning_of_enabled {s : State} (h : StepsEnabled s) (out : Out) : whenRunning s out = out := by
  simp [whenRunning, h.1, h.2]

theorem onPort_eq_next {port : Port} {s s' : State} {out : Out} :
    onPort port s out = .next s' ↔
      s.bus.port = port ∧ out = .next s' ∨ s.bus.port ≠ port ∧ s' = raiseFault .wrongPort s := by
  unfold onPort
  split <;> simp_all [eq_comm]

/-- The effects of PUSH's issue step (40_push.md R120 to R124). -/
inductive PushEffect (count : Nat) (s : State) : State → Prop where
  /-- A check failed. -/
  | rejected (code : FaultCode) (hc : code = .wrongPort ∨ code = .portBusy ∨ code = .payloadLength)
      (hbad : ¬(s.bus.port = .p ∧ s.portP = .idle ∧ s.bus.src.length = count)) :
      PushEffect count s { s with fault := code }
  /-- A count of 0. -/
  | nothing (hport : s.bus.port = .p) (hidle : s.portP = .idle) (hlen : s.bus.src.length = count) (hz : count = 0) :
      PushEffect count s { s with resultsP := s.resultsP ++ [.ack] }
  /-- No free space as the producer sees it. -/
  | dropped (j t : Nat) (hport : s.bus.port = .p) (hidle : s.portP = .idle) (hlen : s.bus.src.length = count)
      (hpos : 1 ≤ count) (hsee : ProducerMaySee s j t) (hnone : kept s count t = 0) :
      PushEffect count s { s with pSeen := j, resultsP := s.resultsP ++ [.ack] }
  /-- Some frames go into flight. -/
  | taken (j t n : Nat) (hport : s.bus.port = .p) (hidle : s.portP = .idle) (hlen : s.bus.src.length = count)
      (hpos : 1 ≤ count) (hsee : ProducerMaySee s j t) (hn : n = kept s count t) (hsome : n ≠ 0) :
      PushEffect count s { s with pSeen := j, portP := .pushBusy n (s.bus.src.take n) }

/-- The effects of POP's issue step (41_pop.md R140 to R144). -/
inductive PopEffect (most : Nat) (s : State) : State → Prop where
  /-- A check failed. -/
  | rejected (code : FaultCode) (hc : code = .wrongPort ∨ code = .portBusy)
      (hbad : ¬(s.bus.port = .c ∧ s.portC = .idle)) :
      PopEffect most s { s with fault := code }
  /-- A maximum of 0. -/
  | nothing (hport : s.bus.port = .c) (hidle : s.portC = .idle) (hz : most = 0) :
      PopEffect most s { s with resultsC := s.resultsC ++ [popResult 0 []] }
  /-- Nothing available as the consumer sees it. -/
  | empty (j h : Nat) (hport : s.bus.port = .c) (hidle : s.portC = .idle) (hpos : 1 ≤ most)
      (hsee : ConsumerMaySee s j h) (hnone : taken s most h = 0) :
      PopEffect most s { s with cSeen := j, resultsC := s.resultsC ++ [popResult 0 []] }
  /-- Some frames are to be read. -/
  | found (j h n : Nat) (hport : s.bus.port = .c) (hidle : s.portC = .idle) (hpos : 1 ≤ most)
      (hsee : ConsumerMaySee s j h) (hn : n = taken s most h) (hsome : n ≠ 0) :
      PopEffect most s { s with cSeen := j, portC := .popBusy n }

/-- The effects of RESET (42_reset.md R160, R161). -/
inductive ResetEffect (s : State) : State → Prop where
  /-- A check failed. -/
  | rejected (code : FaultCode) (hc : code = .wrongPort ∨ code = .resetBusy)
      (hbad : ¬(s.bus.port = .m ∧ s.portP = .idle ∧ s.portC = .idle)) :
      ResetEffect s { s with fault := code }
  /-- The ring is emptied. -/
  | done (hport : s.bus.port = .m) (hp : s.portP = .idle) (hc : s.portC = .idle) : ResetEffect s (resetRing s)

/-- Everything PUSH's issue step can do. -/
theorem execPush_effect {count : Nat} {s s' : State} (h : exec (.push count) s = .next s') :
    StepsEnabled s ∧ PushEffect count s s' := by
  obtain ⟨he, h⟩ := whenRunning_eq_next.1 (show execPush count s = _ from h)
  refine ⟨he, ?_⟩
  rcases onPort_eq_next.1 h with ⟨hport, h⟩ | ⟨hport, rfl⟩
  · cases hc : pushIssueCheck count s with
    | some code =>
      simp only [hc, Host.Outcome.next.injEq] at h
      subst h
      rw [raiseFault_eq _ _ he.2]
      unfold pushIssueCheck at hc
      split at hc
      · exact .rejected code (by simp_all) (by simp_all)
      · split at hc
        · exact .rejected code (by simp_all) (by simp_all)
        · simp at hc
    | none =>
      simp only [hc] at h
      have hck : s.portP = .idle ∧ s.bus.src.length = count := by
        unfold pushIssueCheck at hc
        split at hc
        · simp at hc
        · split at hc <;> simp_all
      split at h
      case isTrue hz =>
        simp only [Host.Outcome.next.injEq] at h
        subst h
        exact .nothing hport hck.1 hck.2 hz
      case isFalse hz =>
        unfold pushIssue at h
        cases hv : viewTail s with
        | none => simp [hv] at h
        | some p =>
          obtain ⟨t, s1⟩ := p
          obtain ⟨j, hsee, rfl⟩ := viewTail_eq_some hv
          simp only [hv] at h
          split at h
          case isTrue hk =>
            simp only [Host.Outcome.next.injEq] at h
            subst h
            exact .dropped j t hport hck.1 hck.2 (by omega) hsee hk
          case isFalse hk =>
            simp only [Host.Outcome.next.injEq] at h
            subst h
            exact .taken j t _ hport hck.1 hck.2 (by omega) hsee rfl hk
  · rw [raiseFault_eq _ _ he.2]
    exact .rejected _ (by simp) fun hok => hport hok.1

/-- Everything POP's issue step can do. -/
theorem execPop_effect {most : Nat} {s s' : State} (h : exec (.pop most) s = .next s') :
    StepsEnabled s ∧ PopEffect most s s' := by
  obtain ⟨he, h⟩ := whenRunning_eq_next.1 (show execPop most s = _ from h)
  refine ⟨he, ?_⟩
  rcases onPort_eq_next.1 h with ⟨hport, h⟩ | ⟨hport, rfl⟩
  · by_cases hidle : s.portC = .idle
    · simp only [popIssueCheck, hidle, ne_eq, not_true_eq_false, ite_false] at h
      split at h
      case isTrue hz =>
        simp only [Host.Outcome.next.injEq] at h
        subst h
        exact .nothing hport hidle hz
      case isFalse hz =>
        unfold popIssue at h
        cases hv : viewHead s with
        | none => simp [hv] at h
        | some p =>
          obtain ⟨v, s1⟩ := p
          obtain ⟨j, hsee, rfl⟩ := viewHead_eq_some hv
          simp only [hv] at h
          split at h
          case isTrue hk =>
            simp only [Host.Outcome.next.injEq] at h
            subst h
            exact .empty j v hport hidle (by omega) hsee hk
          case isFalse hk =>
            simp only [Host.Outcome.next.injEq] at h
            subst h
            exact .found j v _ hport hidle (by omega) hsee rfl hk
    · simp only [popIssueCheck, ne_eq, hidle, not_false_eq_true, ite_true, Host.Outcome.next.injEq] at h
      subst h
      rw [raiseFault_eq _ _ he.2]
      exact .rejected _ (by simp) (by simp [hidle])
  · rw [raiseFault_eq _ _ he.2]
    exact .rejected _ (by simp) fun hok => hport hok.1

/-- Everything RESET can do. -/
theorem execReset_effect {s s' : State} (h : exec .reset s = .next s') : StepsEnabled s ∧ ResetEffect s s' := by
  obtain ⟨he, h⟩ := whenRunning_eq_next.1 (show execReset s = _ from h)
  refine ⟨he, ?_⟩
  rcases onPort_eq_next.1 h with ⟨hport, h⟩ | ⟨hport, rfl⟩
  · by_cases hb : s.portP ≠ .idle ∨ s.portC ≠ .idle
    · simp only [resetCheck, if_pos hb, Host.Outcome.next.injEq] at h
      subst h
      rw [raiseFault_eq _ _ he.2]
      exact .rejected _ (by simp) fun hok => by simp [hok.2.1, hok.2.2] at hb
    · simp only [resetCheck, if_neg hb, Host.Outcome.next.injEq] at h
      subst h
      simp only [not_or, not_not] at hb
      exact .done hport hb.1 hb.2
  · rw [raiseFault_eq _ _ he.2]
    exact .rejected _ (by simp) fun hok => hport hok.1

/-- The state a command finds when it is presented: its move taken off, its lines on the bus. -/
def presented (s : State) (b : Bus) : State := { s with schedule := s.schedule.tail, bus := b }

/-- Everything a step can do, by its move. -/
inductive StepEffect (s : State) : State → Prop where
  /-- Nothing is presented and nothing is in flight. -/
  | idle (hm : nextMove s = none) : StepEffect s s
  /-- Port P is asked to complete and is idle. -/
  | skipP (hm : nextMove s = some .completeP) (hidle : s.portP = .idle) : StepEffect s (takeMove s)
  /-- Port C is asked to complete and is idle. -/
  | skipC (hm : nextMove s = some .completeC) (hidle : s.portC = .idle) : StepEffect s (takeMove s)
  /-- A PUSH completes. -/
  | stored (n : Nat) (fs : List Frame) (hm : nextMove s = some .completeP) (hbusy : s.portP = .pushBusy n fs) :
      StepEffect s (pushComplete n fs (takeMove s))
  /-- A POP completes. -/
  | returned (n : Nat) (hm : nextMove s = some .completeC) (hbusy : s.portC = .popBusy n) :
      StepEffect s (popComplete n (takeMove s))
  /-- A word that is no command is presented. -/
  | illegal (b : Bus) (e : Illegal) (hm : nextMove s = some (.present b.port b.word b.src b.draw))
      (hd : decode b.word = .error e) : StepEffect s { presented s b with fault := .illegalCommand }
  /-- A PUSH is presented. -/
  | push (b : Bus) (count : Nat) (s' : State) (hm : nextMove s = some (.present b.port b.word b.src b.draw))
      (hd : decode b.word = .ok (.push count)) (he : PushEffect count (presented s b) s') : StepEffect s s'
  /-- A POP is presented. -/
  | pop (b : Bus) (most : Nat) (s' : State) (hm : nextMove s = some (.present b.port b.word b.src b.draw))
      (hd : decode b.word = .ok (.pop most)) (he : PopEffect most (presented s b) s') : StepEffect s s'
  /-- A RESET is presented. -/
  | reset (b : Bus) (s' : State) (hm : nextMove s = some (.present b.port b.word b.src b.draw))
      (hd : decode b.word = .ok .reset) (he : ResetEffect (presented s b) s') : StepEffect s s'

/-- Everything a step can do, if it answers a next state. -/
theorem step_effect {s s' : State} (h : step s = .next s') : StepsEnabled s ∧ StepEffect s s' := by
  unfold step at h
  cases hm : nextMove s with
  | none =>
    simp only [hm, idleStep, whenRunning_eq_next, Host.Outcome.next.injEq] at h
    obtain ⟨he, rfl⟩ := h
    exact ⟨he, .idle hm⟩
  | some m =>
    simp only [hm] at h
    cases m with
    | completeP =>
      obtain ⟨he, h⟩ := whenRunning_eq_next.1 (show completeP (takeMove s) = _ from h)
      refine ⟨he, ?_⟩
      cases hp : s.portP with
      | idle => simp only [takeMove_portP, hp, Host.Outcome.next.injEq] at h; subst h; exact .skipP hm hp
      | pushBusy n fs =>
        simp only [takeMove_portP, hp, Host.Outcome.next.injEq] at h; subst h; exact .stored n fs hm hp
    | completeC =>
      obtain ⟨he, h⟩ := whenRunning_eq_next.1 (show completeC (takeMove s) = _ from h)
      refine ⟨he, ?_⟩
      cases hp : s.portC with
      | idle => simp only [takeMove_portC, hp, Host.Outcome.next.injEq] at h; subst h; exact .skipC hm hp
      | popBusy n => simp only [takeMove_portC, hp, Host.Outcome.next.injEq] at h; subst h; exact .returned n hm hp
    | present port word src draw =>
      replace h : present word (presented s ⟨port, word, src, draw⟩) = .next s' := h
      unfold present at h
      cases hd : decode word with
      | error e =>
        simp only [hd, whenRunning_eq_next, Host.Outcome.next.injEq] at h
        obtain ⟨he, rfl⟩ := h
        rw [raiseFault_eq _ _ he.2]
        exact ⟨he, .illegal ⟨port, word, src, draw⟩ e hm hd⟩
      | ok i =>
        simp only [hd] at h
        cases i with
        | push count =>
          obtain ⟨he, hf⟩ := execPush_effect h
          exact ⟨he, .push ⟨port, word, src, draw⟩ count s' hm hd hf⟩
        | pop most =>
          obtain ⟨he, hf⟩ := execPop_effect h
          exact ⟨he, .pop ⟨port, word, src, draw⟩ most s' hm hd hf⟩
        | reset =>
          obtain ⟨he, hf⟩ := execReset_effect h
          exact ⟨he, .reset ⟨port, word, src, draw⟩ s' hm hd hf⟩

end Sys2Proof.Machine
end

