-- ==== Sys2Proof/Laws/Index.lean ====
section
/-! SUPPORT. Index arithmetic modulo the capacity (00_scope.md R15, R17). -/

namespace Sys2Proof.Machine

theorem capacity_pos (c : Config) : 0 < c.capacity := Nat.two_pow_pos _

/-- A block that is not refused has a usable slot (00_scope.md R10). -/
theorem two_le_capacity {c : Config} (h : c.wf = true) : 2 ≤ c.capacity := by
  simp only [Config.wf, decide_eq_true_eq] at h
  exact (Nat.pow_le_pow_right (by norm_num) h : 2 ^ 1 ≤ _)

/-- `x & MASK` is `x mod C` (00_scope.md R15). -/
theorem wrap_eq_mod (c : Config) (x : Nat) : wrap c x = x % c.capacity := by
  simp [wrap, Config.mask, Config.capacity, Nat.and_two_pow_sub_one_eq_mod]

theorem wrap_lt (c : Config) (x : Nat) : wrap c x < c.capacity := by
  rw [wrap_eq_mod]; exact Nat.mod_lt _ (capacity_pos c)

@[simp] theorem slotRun_length (c : Config) (b n : Nat) : (slotRun c b n).length = n := by simp [slotRun]

theorem slotRun_getElem (c : Config) (b n i : Nat) (h : i < (slotRun c b n).length) :
    (slotRun c b n)[i] = wrap c (b + i) := by simp [slotRun]

theorem mem_slotRun {c : Config} {b n a : Nat} : a ∈ slotRun c b n ↔ ∃ i, i < n ∧ wrap c (b + i) = a := by
  simp [slotRun]

theorem slotRun_lt {c : Config} {b n a : Nat} (h : a ∈ slotRun c b n) : a < c.capacity := by
  obtain ⟨i, -, rfl⟩ := mem_slotRun.1 h; exact wrap_lt c _

/-- Within one lap, different offsets are different slots. -/
theorem wrap_inj {c : Config} {b i j : Nat} (hi : i < c.capacity) (hj : j < c.capacity)
    (h : wrap c (b + i) = wrap c (b + j)) : i = j := by
  rw [wrap_eq_mod, wrap_eq_mod] at h
  have := Nat.ModEq.add_left_cancel' b (show b + i ≡ b + j [MOD c.capacity] from h)
  rwa [Nat.ModEq, Nat.mod_eq_of_lt hi, Nat.mod_eq_of_lt hj] at this

theorem slotRun_nodup {c : Config} {b n : Nat} (h : n ≤ c.capacity) : (slotRun c b n).Nodup := by
  refine List.Nodup.map_on (fun i hi j hj he => ?_) List.nodup_range
  exact wrap_inj (lt_of_lt_of_le (List.mem_range.1 hi) h) (lt_of_lt_of_le (List.mem_range.1 hj) h) he

/-- A transfer of `n + k` frames is one of `n` and then one of `k`. -/
theorem slotRun_add (c : Config) (b n k : Nat) : slotRun c b (n + k) = slotRun c b n ++ slotRun c (b + n) k := by
  simp [slotRun, List.range_add, Nat.add_assoc, Function.comp_def]

/-- The base of a transfer counts modulo the capacity. -/
theorem slotRun_mod (c : Config) (b n : Nat) : slotRun c (b % c.capacity) n = slotRun c b n := by
  simp [slotRun, wrap_eq_mod]

theorem used_lt (c : Config) (h t : Nat) : used c h t < c.capacity := Nat.mod_lt _ (capacity_pos c)

theorem used_self (c : Config) (t : Nat) : used c t t = 0 := by simp [used]

/-- The index difference of two totals less than a lap apart is their difference (20_memory.md R84). -/
theorem used_mod {c : Config} {h t : Nat} (hle : t ≤ h) (hlt : h - t < c.capacity) :
    used c (h % c.capacity) (t % c.capacity) = h - t := by
  obtain ⟨d, rfl⟩ := Nat.exists_eq_add_of_le hle
  simp only [Nat.add_sub_cancel_left] at hlt ⊢
  have ht := Nat.mod_lt t (capacity_pos c)
  simp only [used]
  by_cases hc : t % c.capacity + d < c.capacity
  · rw [Nat.add_mod, Nat.mod_eq_of_lt hlt, Nat.mod_eq_of_lt hc,
      show t % c.capacity + d + c.capacity - t % c.capacity = d + c.capacity by omega, Nat.add_mod_right,
      Nat.mod_eq_of_lt hlt]
  · have hw : (t % c.capacity + d) % c.capacity = t % c.capacity + d - c.capacity := by
      rw [Nat.mod_eq_sub_mod (by omega), Nat.mod_eq_of_lt (by omega)]
    rw [Nat.add_mod, Nat.mod_eq_of_lt hlt, hw,
      show t % c.capacity + d - c.capacity + c.capacity - t % c.capacity = d by omega, Nat.mod_eq_of_lt hlt]

/-- Going on by `used` from `t` gets to `h`. -/
theorem add_used_mod {c : Config} {h t : Nat} (hh : h < c.capacity) (ht : t < c.capacity) :
    (t + used c h t) % c.capacity = h := by
  simp only [used]
  rw [Nat.add_mod_mod, show t + (h + c.capacity - t) = h + c.capacity by omega, Nat.add_mod_right, Nat.mod_eq_of_lt hh]

/-- A transfer of less than a lap moves the index by that much. -/
theorem used_advance {c : Config} {b n : Nat} (hb : b < c.capacity) (hn : n < c.capacity) :
    used c ((b + n) % c.capacity) b = n := by
  have := used_mod (c := c) (h := b + n) (t := b) (by omega) (by omega)
  rw [Nat.mod_eq_of_lt hb] at this
  simpa using this

theorem used_eq_zero {c : Config} {h t : Nat} (hh : h < c.capacity) (ht : t < c.capacity) :
    used c h t = 0 ↔ h = t := by
  constructor
  · intro he
    have := add_used_mod hh ht
    rw [he, Nat.add_zero, Nat.mod_eq_of_lt ht] at this
    exact this.symm
  · rintro rfl; exact used_self c h

end Sys2Proof.Machine
end

