-- ==== Sys2Proof/Laws/Memory.lean ====
section
/-! SUPPORT. Laws of the slot storage: reads after writes, the canonical form, and whole transfers. -/

namespace Sys2Proof.Machine

@[simp] theorem memRead_nil (a : Nat) : memRead [] a = none := rfl

theorem memRead_cons (b : Nat) (g : Frame) (m : Memory) (a : Nat) :
    memRead ((b, g) :: m) a = if b = a then some g else memRead m a := rfl

/-- What one write does to every read. -/
theorem memRead_memWrite (m : Memory) (a b : Nat) (f : Frame) :
    memRead (memWrite m a f) b = if a = b then some f else memRead m b := by
  induction m with
  | nil => simp [memWrite, memRead_cons]
  | cons e m ih =>
    obtain ⟨c, g⟩ := e
    simp only [memWrite]
    split
    · simp [memRead_cons]
    · split
      · subst_vars; simp only [memRead_cons]; split <;> rfl
      · simp only [memRead_cons, ih]; split <;> split <;> simp_all

/-- The indices listed after a write. -/
theorem mem_memWrite {m : Memory} {a : Nat} {f : Frame} {e : Nat × Frame} (h : e ∈ memWrite m a f) :
    e = (a, f) ∨ e ∈ m := by
  induction m with
  | nil => simpa [memWrite] using h
  | cons d m ih =>
    obtain ⟨c, g⟩ := d
    simp only [memWrite] at h
    split at h
    · simpa using h
    · split at h
      · rcases List.mem_cons.1 h with h | h <;> simp [h]
      · rcases List.mem_cons.1 h with h | h
        · simp [h]
        · rcases ih h with h | h <;> simp [h]

/-- A write within the slot space keeps the canonical form. -/
theorem memWrite_wf {m : Memory} {cap a : Nat} (f : Frame) (h : m.wf cap) (ha : a < cap) : (memWrite m a f).wf cap := by
  refine ⟨?_, fun e he => ?_⟩
  · obtain ⟨hs, -⟩ := h
    induction m with
    | nil => simp [memWrite]
    | cons e m ih =>
      obtain ⟨c, g⟩ := e
      rw [List.pairwise_cons] at hs
      obtain ⟨h1, h2⟩ := hs
      simp only [memWrite]
      split
      case isTrue hlt =>
        refine List.pairwise_cons.2 ⟨fun x hx => ?_, List.pairwise_cons.2 ⟨h1, h2⟩⟩
        rcases List.mem_cons.1 hx with rfl | hx
        · exact hlt
        · exact hlt.trans (h1 x hx)
      case isFalse hlt =>
        split
        · subst_vars; exact List.pairwise_cons.2 ⟨h1, h2⟩
        · refine List.pairwise_cons.2 ⟨fun x hx => ?_, ih h2⟩
          rcases mem_memWrite hx with rfl | hx
          · show c < a; omega
          · exact h1 x hx
  · rcases mem_memWrite he with rfl | he
    · exact ha
    · exact h.2 e he

/-- A whole transfer within the slot space keeps the canonical form. -/
theorem storeAll_wf {cap : Nat} (ss : List Nat) (fs : List Frame) {m : Memory} (h : m.wf cap) (hs : ∀ a ∈ ss, a < cap) :
    (storeAll m ss fs).wf cap := by
  induction ss generalizing m fs with
  | nil => simpa [storeAll] using h
  | cons a ss ih =>
    cases fs with
    | nil => simpa [storeAll] using h
    | cons f fs =>
      simp only [storeAll]
      exact ih fs (memWrite_wf f h (hs a (by simp))) fun b hb => hs b (by simp [hb])

/-- The storage at power-on, and so at `State.reset`, is in canonical form. -/
theorem powerOn_slot_wf (c : Config) (moves : List Move) : (State.powerOn c moves).slot.wf c.capacity :=
  ⟨List.Pairwise.nil, fun _ h => absurd h (List.not_mem_nil)⟩

/-- A transfer leaves every slot it does not name. -/
theorem memRead_storeAll_of_notMem {ss : List Nat} (fs : List Frame) {m : Memory} {b : Nat} (h : b ∉ ss) :
    memRead (storeAll m ss fs) b = memRead m b := by
  induction ss generalizing m fs with
  | nil => simp [storeAll]
  | cons a ss ih =>
    cases fs with
    | nil => simp [storeAll]
    | cons f fs =>
      simp only [List.mem_cons, not_or] at h
      rw [storeAll, ih fs h.2, memRead_memWrite, if_neg (Ne.symm h.1)]

/-- Element `i` of a transfer to distinct slots is in the `i`-th slot. -/
theorem memRead_storeAll {ss : List Nat} {fs : List Frame} {m : Memory} (hn : ss.Nodup) (hl : fs.length = ss.length)
    (i : Nat) (hi : i < ss.length) : memRead (storeAll m ss fs) ss[i] = fs[i]? := by
  induction ss generalizing m fs i with
  | nil => simp at hi
  | cons a ss ih =>
    cases fs with
    | nil => simp at hl
    | cons f fs =>
      rw [List.nodup_cons] at hn
      cases i with
      | zero => simp [storeAll, memRead_storeAll_of_notMem fs hn.1, memRead_memWrite]
      | succ i =>
        simp only [storeAll, List.getElem_cons_succ, List.getElem?_cons_succ]
        exact ih hn.2 (by simpa using hl) i (by simpa using hi)

/-- Reading a list of slots succeeds exactly when each holds a frame, and answers those frames. -/
theorem loadAll_eq_some {m : Memory} {ss : List Nat} {fs : List Frame} :
    loadAll m ss = some fs ↔ ss.map (memRead m) = fs.map some := by
  induction ss generalizing fs with
  | nil => cases fs <;> simp [loadAll]
  | cons a ss ih =>
    simp only [loadAll, List.map_cons]
    cases ha : memRead m a with
    | none => cases fs <;> simp
    | some g =>
      cases hr : loadAll m ss with
      | none =>
        cases fs with
        | nil => simp
        | cons f fs =>
          simp only [List.map_cons, List.cons.injEq, Option.some.injEq, reduceCtorEq, false_iff, not_and]
          exact fun _ h => by simp [ih.2 h] at hr
      | some gs =>
        have := ih.1 hr
        cases fs with
        | nil => simp
        | cons f fs =>
          simp only [Option.some.injEq, List.cons.injEq, List.map_cons, this]
          exact and_congr Iff.rfl (List.map_inj_right (fun _ _ h => Option.some.inj h)).symm

/-- Reading a list of slots fails exactly when one holds no frame. -/
theorem loadAll_eq_none {m : Memory} {ss : List Nat} : loadAll m ss = none ↔ ∃ a ∈ ss, memRead m a = none := by
  induction ss with
  | nil => simp [loadAll]
  | cons a ss ih =>
    simp only [loadAll, List.mem_cons, exists_eq_or_imp, ← ih]
    cases memRead m a <;> cases loadAll m ss <;> simp

theorem loadAll_length {m : Memory} {ss : List Nat} {fs : List Frame} (h : loadAll m ss = some fs) :
    fs.length = ss.length := by
  simpa using (congrArg List.length (loadAll_eq_some.1 h)).symm

end Sys2Proof.Machine
end

