-- ==== Sys2Proof/Laws/PerInstr.lean ====
section
/-! SUPPORT. Statements about every command, one lemma per constructor. -/

namespace Sys2Proof.Laws.EncodedFields

/-- The operation code of a command (30_encoding.md R102). -/
def opOf : Instr → BitVec 2
  | .push _ => 0b01#2
  | .pop _ => 0b10#2
  | .reset => 0b11#2

/-- The count operand of a command; 0 for RESET (30_encoding.md R101). -/
def countOf : Instr → Nat
  | .push count => count
  | .pop maxCount => maxCount
  | .reset => 0

theorem commandWord_toNat (op : BitVec 2) (n : Nat) : (commandWord op n).toNat = op.toNat * 2 ^ 30 + n % 2 ^ 30 := by
  rw [commandWord, BitVec.toNat_append, BitVec.toNat_ofNat,
    ← Nat.shiftLeft_add_eq_or_of_lt (Nat.mod_lt n (by norm_num)), Nat.shiftLeft_eq]

theorem opField_toNat (w : Word) : (opField w).toNat = w.toNat / 2 ^ 30 := by
  have := w.isLt
  simp only [opField, BitVec.extractLsb'_toNat, Nat.shiftRight_eq_div_pow]
  omega

theorem countField_eq (w : Word) : countField w = w.toNat % 2 ^ 30 := by
  simp [countField, BitVec.extractLsb'_toNat]

theorem opField_commandWord (op : BitVec 2) (n : Nat) : opField (commandWord op n) = op := by
  apply BitVec.eq_of_toNat_eq
  rw [opField_toNat, commandWord_toNat]
  omega

theorem countField_commandWord (op : BitVec 2) (n : Nat) (h : n < 2 ^ 30) : countField (commandWord op n) = n := by
  rw [countField_eq, commandWord_toNat]
  omega

/-- A well-formed command's word carries its operation code and its count. -/
def Statement (i : Instr) : Prop :=
  i.wf = true → opField (encode i) = opOf i ∧ countField (encode i) = countOf i

theorem push (count : Nat) : Statement (.push count) := fun h =>
  ⟨opField_commandWord _ _, countField_commandWord _ _ (by simpa [Instr.wf, countFits] using h)⟩

theorem pop (maxCount : Nat) : Statement (.pop maxCount) := fun h =>
  ⟨opField_commandWord _ _, countField_commandWord _ _ (by simpa [Instr.wf, countFits] using h)⟩

theorem reset : Statement .reset := fun _ =>
  ⟨opField_commandWord _ _, countField_commandWord _ _ (by norm_num)⟩

end Sys2Proof.Laws.EncodedFields
end

