-- ==== Sys2Proof/Machine/Asm.lean ====
section
/-! DEFINITION. The assembler syntax of the commands, as a printer (30_encoding.md R109). -/

namespace Sys2Proof.Machine

/-- The name of a port before the colon (30_encoding.md R109). -/
def portText : Port → String
  | .p => "P"
  | .c => "C"
  | .m => "M"

/-- Eight hexadecimal digits. -/
def hexText (x : Sample) : String :=
  String.ofList ((List.range 8).map fun i => Nat.digitChar (x.toNat / 16 ^ (7 - i) % 16))

/-- A frame literal, right sample in the high half (30_encoding.md R109). -/
def frameText (f : Frame) : String := "0x" ++ hexText (rightSample f) ++ "_" ++ hexText (leftSample f)

/-- A list of frame literals, separated by commas. -/
def framesText : List Frame → String
  | [] => ""
  | [f] => frameText f
  | f :: fs => frameText f ++ ", " ++ framesText fs

/-- One line of assembler text: the port, the command, and a PUSH's payload (30_encoding.md R109). -/
def commandText (port : Port) (i : Instr) (src : List Frame) : String :=
  portText port ++ ": " ++
    match i with
    | .push count => "PUSH " ++ toString count ++ ", [" ++ framesText src ++ "]"
    | .pop maxCount => "POP " ++ toString maxCount
    | .reset => "RESET"

end Sys2Proof.Machine
end

