-- ==== Sys2Proof/Tests/Slice0.lean ====
section
/-! SUPPORT. Tests: expected values come from 95_test_vectors.md or are computed by hand from the rules named. Then, for every
obligation with hypotheses, a concrete state and operands that meet them together. -/

namespace Sys2Proof.Tests

open Sys2Proof Sys2Proof.Machine

/-! ## Well-formedness: an ill-formed term for each check (30_encoding.md R101, 00_scope.md R10) -/

theorem test_push_count_too_wide : (Instr.push (2 ^ 30)).wf = false := by decide
theorem test_pop_count_too_wide : (Instr.pop (2 ^ 30)).wf = false := by decide
theorem test_largest_counts_fit : (Instr.push (2 ^ 30 - 1)).wf = true ∧ (Instr.pop (2 ^ 30 - 1)).wf = true := by decide
theorem test_zero_capacity_is_ill_formed : (Config.mk 0 true).wf = false ∧ (Config.mk 1 true).wf = true := by decide

/-! ## Decoding: words written out from the fields of 30_encoding.md R100, R102 -/

theorem test_decode_push : decode 0b01000000000000000000000000000101#32 = .ok (.push 5) := by decide
theorem test_decode_push_wide : decode 0b01100000000000000000000000000001#32 = .ok (.push 536870913) := by decide
theorem test_decode_pop : decode 0b10000000000000000000000000001000#32 = .ok (.pop 8) := by decide
theorem test_decode_pop_wide : decode 0b10111111111111111111111111111111#32 = .ok (.pop 1073741823) := by decide
theorem test_decode_reset : decode 0b11000000000000000000000000000000#32 = .ok .reset := by decide
theorem test_decode_reset_with_count : decode 0b11100000000000000000000000000000#32 = .error (.resetWithCount 536870912) := by
  decide
theorem test_decode_reserved : decode 0b00000000000000000000000000000000#32 = .error (.reservedOp 0) := by decide
theorem test_table_words : decodeTableWord 32 0x40000003 = some (.push 3) ∧ decodeTableWord 32 0x80000000 = some (.pop 0) ∧
    decodeTableWord 32 0xC0000000 = some .reset ∧ decodeTableWord 32 0xFFFFFFFF = none := by decide

/-! ## Assembler text: the lines of 95_test_vectors.md and 30_encoding.md R109 -/

theorem test_asm_push : commandText .p (.push 2) [frameOf 0x3F800000#32 0xBF000000#32, 0] =
    "P: PUSH 2, [0xbf000000_3f800000, 0x00000000_00000000]" := by decide
theorem test_asm_pop : commandText .c (.pop 8) [] = "C: POP 8" := by decide

/-! ## Small states

A block with `K = 3` that was filled from slot 0 and perhaps popped once; every slot `i` holds the frame `i + 1`. -/

/-- `head`, `tail`, their histories, the views. -/
def ring (stale : Bool) (head tail : Nat) (headHist tailHist : List Nat) (pSeen cSeen : Nat) : State :=
  { State.powerOn ⟨3, stale⟩ [] with
    slot := (List.range 8).map fun i => (i, BitVec.ofNat 64 (i + 1))
    head := head
    tail := tail
    headHist := headHist
    tailHist := tailHist
    pSeen := pSeen
    cSeen := cSeen }

/-- Three frames live, neither agent has looked again. -/
def holding (stale : Bool) : State := ring stale 3 0 [0, 3] [0] 0 0

/-- The same three frames popped, both views up to date. -/
def drained (stale : Bool) : State := ring stale 3 3 [0, 3] [0, 3] 1 1

/-- Seven frames live. -/
def filled : State := ring true 7 0 [0, 7] [0] 0 0

/-- `s` with what the environment drives and what it still does. -/
def facing (s : State) (b : Bus) (moves : List Move) : State := { s with bus := b, schedule := moves }

/-- A PUSH of two frames is in flight. -/
def pushing : State := { holding true with portP := .pushBusy 2 [20, 21] }

/-- A POP of two frames is in flight. -/
def popping : State := { holding true with portC := .popBusy 2, cSeen := 1 }

def onP (src : List Frame) (draw : Nat) : Bus := ⟨.p, 0, src, draw⟩
def onC (draw : Nat) : Bus := ⟨.c, 0, [], draw⟩
def onM : Bus := ⟨.m, 0, [], 0⟩

/-- One field of the state an outcome holds. -/
def after {α : Type} (f : State → α) : Out → Option α
  | .next s => some (f s)
  | _ => none

/-! ## One step each -/

/-- V-P6: with five frames live a PUSH of four keeps two. -/
theorem test_push_issue : after State.portP (exec (.push 4) (facing (ring true 5 0 [0, 5] [0] 0 0) (onP [1, 2, 3, 4] 0) [])) =
    some (.pushBusy 2 [1, 2]) := by decide

/-- V-P7: from head 6 the five frames go to slots 6, 7, 0, 1, 2. -/
theorem test_push_completion_wraps : after (fun s => (s.head, [6, 7, 0, 1, 2, 3].map (memRead s.slot)))
    (completeP { ring true 6 6 [0, 6] [0, 6] 1 1 with portP := .pushBusy 5 [90, 91, 92, 93, 94] }) =
    some (3, [some 90, some 91, some 92, some 93, some 94, some 4]) := by decide

/-- V-C5: a POP of five frames from tail 6. -/
theorem test_pop_completion_wraps : after (fun s => (s.tail, s.tailHist, s.resultsC))
    (completeC { ring true 3 6 [0, 6, 3] [0, 6] 0 2 with portC := .popBusy 5 }) =
    some (3, [0, 6, 3], [.popped 5 [7, 8, 1, 2, 3]]) := by decide

/-- V-C8: the stale view with draw `j = 1` of three entries. -/
theorem test_pop_issue_stale : after (fun s => (s.portC, s.cSeen))
    (exec (.pop 8) (facing (ring true 6 0 [0, 3, 6] [0] 0 0) (onC 1) [])) = some (.popBusy 3, 1) := by decide

/-- V-R1: RESET with head 5 and tail 2. -/
theorem test_reset : after (fun s => (s.head, s.tail, s.headHist, s.tailHist, memRead s.slot 2))
    (exec .reset (facing (ring true 5 2 [0, 5] [0, 2] 1 1) onM [])) = some (0, 0, [0], [0], some 3) := by decide

/-- V-R3: RESET while a POP is in flight. -/
theorem test_reset_busy : after (fun s => (faultNumber s.fault, s.portC, s.head)) (exec .reset (facing popping onM [])) =
    some (4, .popBusy 2, 3) := by decide

/-- The first step after reset with a PUSH word presented (10_state.md R47, 40_push.md R123). -/
theorem test_fetch : after State.portP (step (State.reset.withFetchWord 32 0x40000003)) = some (.pushBusy 3 [0, 0, 0]) := by
  decide

/-! ## States of the invariant -/

/-- The invariant does not look at the environment. -/
theorem inv_facing {s : State} (h : RingInv s) (b : Bus) (moves : List Move) : RingInv (facing s b moves) :=
  ⟨h.capacity, h.storage, h.heads, h.tails, h.lag, h.lap, h.pushing, h.popping, h.written⟩

/-- Both ports idle: the invariant is a check of numbers. -/
theorem inv_idle {s : State} (hP : s.portP = .idle) (hC : s.portC = .idle) (hw : s.cfg.wf = true)
    (hm : s.slot.wf s.cfg.capacity) (hh : HistoryOk s.cfg s.headHist s.head s.cSeen)
    (ht : HistoryOk s.cfg s.tailHist s.tail s.pSeen)
    (hn : poppedTotal s ≤ pushedSeen s ∧ pushedTotal s ≤ poppedSeen s + (s.cfg.capacity - 1))
    (hl : ∀ i, i < used s.cfg s.head s.tail → memRead s.slot (wrap s.cfg (s.tail + i)) ≠ none) : RingInv s :=
  ⟨hw, hm, hh, ht, hn.1, hn.2, fun _ _ e => (by rw [hP] at e; cases e), fun _ e => (by rw [hC] at e; cases e), hl⟩

theorem inv_holding (stale : Bool) : RingInv (holding stale) := by
  cases stale <;> exact inv_idle rfl rfl rfl (by decide) ⟨rfl, rfl, by decide, by decide⟩ ⟨rfl, rfl, by decide, by decide⟩
    (by decide) (by decide)

theorem inv_drained (stale : Bool) : RingInv (drained stale) := by
  cases stale <;> exact inv_idle rfl rfl rfl (by decide) ⟨rfl, rfl, by decide, by decide⟩ ⟨rfl, rfl, by decide, by decide⟩
    (by decide) (by decide)

theorem inv_filled : RingInv filled :=
  inv_idle rfl rfl rfl (by decide) ⟨rfl, rfl, by decide, by decide⟩ ⟨rfl, rfl, by decide, by decide⟩ (by decide) (by decide)

theorem inv_pushing : RingInv pushing :=
  have h := inv_holding true
  ⟨h.capacity, h.storage, h.heads, h.tails, h.lag, h.lap, fun _ _ e => by cases e; decide, fun _ e => (nomatch e), h.written⟩

theorem inv_popping : RingInv popping :=
  have h := inv_holding true
  ⟨h.capacity, h.storage, ⟨rfl, rfl, by decide, by decide⟩, h.tails, by decide, h.lap, fun _ _ e => (nomatch e),
    fun _ e => by cases e; decide, h.written⟩

/-! ## Witnesses: encoding -/

theorem witness_DecodeEncodeAgree :
    (Instr.push 0).wf = true ∧ (Instr.push 1073741823).wf = true ∧ (Instr.pop 1073741823).wf = true ∧ Instr.reset.wf = true := by
  decide

theorem witness_EncodeDecodeAgree :
    decode 0x7FFFFFFF#32 = .ok (.push 1073741823) ∧ decode 0x80000000#32 = .ok (.pop 0) ∧ decode 0xC0000000#32 = .ok .reset := by
  decide

/-- A word at the edge of each of the five clauses. -/
theorem witness_DecodeReadsOpAndCount :
    (0x7FFFFFFF#32).toNat / 2 ^ 30 = 1 ∧ (0xBFFFFFFF#32).toNat / 2 ^ 30 = 2 ∧
    ((0xC0000000#32).toNat / 2 ^ 30 = 3 ∧ (0xC0000000#32).toNat % 2 ^ 30 = 0) ∧
    ((0xC0000001#32).toNat / 2 ^ 30 = 3 ∧ (0xC0000001#32).toNat % 2 ^ 30 ≠ 0) ∧ (0x3FFFFFFF#32).toNat / 2 ^ 30 = 0 := by
  decide

/-! ## Witnesses: a step and its checks -/

/-- The moves of the next witnesses: a reserved word, and each command. -/
def illegalMove : Move := .present .m 0x3FFFFFFF#32 [] 0
def pushMove : Move := .present .p 0x40000002#32 [30, 31] 0
def popMove : Move := .present .c 0x80000002#32 [] 1
def resetMove : Move := .present .m 0xC0000000#32 [] 0

theorem witness_StepRunsDecodedCommand :
    (facing (holding true) onM [pushMove]).schedule = .present .p 0x40000002#32 [30, 31] 0 :: [] ∧
    decode 0x40000002#32 = .ok (.push 2) := by decide

/-- `s` enabled, about to see `m`. -/
def Sees (s : State) (m : Move) : Prop := StepsEnabled (facing s onM [m]) ∧ (facing s onM [m]).schedule = m :: []

/-- A reserved word; a PUSH on port M. -/
theorem witness_ChecksRunInOrder_decode_and_port :
    (Sees (holding true) illegalMove ∧ decode 0x3FFFFFFF#32 = .error (.reservedOp 1073741823)) ∧
    Sees (holding true) (.present .m 0x40000002#32 [30, 31] 0) ∧ decode 0x40000002#32 = .ok (.push 2) ∧
      Port.m ≠ portOf (.push 2) := ⟨⟨⟨⟨rfl, rfl⟩, rfl⟩, by decide⟩, ⟨⟨rfl, rfl⟩, rfl⟩, by decide⟩

/-- A PUSH on a busy port, with a short payload, and one that runs. -/
theorem witness_ChecksRunInOrder_push :
    decode 0x40000002#32 = .ok (.push 2) ∧ (Sees pushing pushMove ∧ pushing.portP ≠ .idle) ∧
    (Sees (holding true) (.present .p 0x40000002#32 [30] 0) ∧ (holding true).portP = .idle ∧ ([30] : List Frame).length ≠ 2) ∧
    Sees (holding true) pushMove ∧ ([30, 31] : List Frame).length = 2 ∧
      after State.fault (step (facing (holding true) onM [pushMove])) = some .noFault :=
  ⟨by decide, ⟨⟨⟨rfl, rfl⟩, rfl⟩, by decide⟩, ⟨⟨⟨rfl, rfl⟩, rfl⟩, by decide⟩, ⟨⟨rfl, rfl⟩, rfl⟩, by decide⟩

/-- A POP on a busy port, and one that runs. -/
theorem witness_ChecksRunInOrder_pop :
    decode 0x80000002#32 = .ok (.pop 2) ∧ (Sees popping popMove ∧ popping.portC ≠ .idle) ∧
    Sees (holding true) popMove ∧ (holding true).portC = .idle ∧
      after State.fault (step (facing (holding true) onM [popMove])) = some .noFault :=
  ⟨by decide, ⟨⟨⟨rfl, rfl⟩, rfl⟩, by decide⟩, ⟨⟨rfl, rfl⟩, rfl⟩, by decide⟩

/-- A RESET during a PUSH, and one that runs. -/
theorem witness_ChecksRunInOrder_reset :
    decode 0xC0000000#32 = .ok .reset ∧ (Sees pushing resetMove ∧ (pushing.portP ≠ .idle ∨ pushing.portC ≠ .idle)) ∧
    Sees (holding true) resetMove ∧ (holding true).portP = .idle ∧ (holding true).portC = .idle ∧
      after State.fault (step (facing (holding true) onM [resetMove])) = some .noFault :=
  ⟨by decide, ⟨⟨⟨rfl, rfl⟩, rfl⟩, by decide⟩, ⟨⟨rfl, rfl⟩, rfl⟩, by decide⟩

theorem witness_ReservedWordRaisesIllegalCommand :
    StepsEnabled (facing (holding true) onM [illegalMove]) ∧
    (facing (holding true) onM [illegalMove]).schedule = .present .m 0x3FFFFFFF#32 [] 0 :: [] ∧
    (0x3FFFFFFF#32).toNat / 2 ^ 30 = 0 ∧
    ((0xFFFFFFFF#32).toNat / 2 ^ 30 = 3 ∧ (0xFFFFFFFF#32).toNat % 2 ^ 30 ≠ 0) := ⟨⟨rfl, rfl⟩, by decide⟩

theorem witness_WrongPortRaised :
    StepsEnabled (facing (holding true) (onC 0) []) ∧ (onC 0).port = .c ∧
    StepsEnabled (facing (holding true) (onP [] 0) []) ∧ (onP [] 0).port = .p ∧
    StepsEnabled (facing (holding true) onM []) ∧ onM.port = .m := ⟨⟨rfl, rfl⟩, rfl, ⟨rfl, rfl⟩, rfl, ⟨rfl, rfl⟩, rfl⟩

theorem witness_PortBusyRaised :
    (StepsEnabled (facing pushing (onP [] 0) []) ∧ (onP [] 0).port = .p ∧ pushing.portP ≠ .idle) ∧
    StepsEnabled (facing popping (onC 0) []) ∧ (onC 0).port = .c ∧ popping.portC ≠ .idle :=
  ⟨⟨⟨rfl, rfl⟩, by decide⟩, ⟨rfl, rfl⟩, by decide⟩

theorem witness_ResetBusyRaised :
    (StepsEnabled (facing pushing onM []) ∧ onM.port = .m ∧ (pushing.portP ≠ .idle ∨ pushing.portC ≠ .idle)) ∧
    StepsEnabled (facing popping onM []) ∧ (popping.portP ≠ .idle ∨ popping.portC ≠ .idle) :=
  ⟨⟨⟨rfl, rfl⟩, by decide⟩, ⟨rfl, rfl⟩, by decide⟩

theorem witness_PayloadLengthRaised :
    StepsEnabled (facing (holding true) (onP [1] 0) []) ∧ (onP [1] 0).port = .p ∧ (holding true).portP = .idle ∧
    (onP [1] 0).src.length ≠ 0 ∧ (onP [1] 0).src.length ≠ 2 := ⟨⟨rfl, rfl⟩, by decide⟩

theorem witness_FaultingStepChangesOnlyFault :
    after State.fault (step (facing (holding true) onM [illegalMove])) = some .illegalCommand := by decide

theorem witness_FaultedBlockTakesNoStep :
    ({ holding true with fault := .portBusy } : State).cfg.wf = true ∧
    ({ holding true with fault := .portBusy } : State).fault ≠ .noFault := by decide

theorem witness_ZeroCapacityRefused : (State.powerOn ⟨0, true⟩ [pushMove]).cfg.capacityLog2 = 0 := rfl

/-! ## Witnesses: snapshots -/

theorem witness_ProducerSnapshotDraws :
    (ring true 7 4 [0, 7] [0, 4] 0 1).pSeen < (ring true 7 4 [0, 7] [0, 4] 0 1).tailHist.length ∧
    ProducerMaySee (ring true 7 4 [0, 7] [0, 4] 0 1) 0 0 ∧ ProducerMaySee (ring true 7 4 [0, 7] [0, 4] 0 1) 1 4 ∧
    ProducerMaySee (ring false 7 4 [0, 7] [0, 4] 0 1) 1 4 := ⟨by decide, ⟨rfl, by decide⟩, ⟨rfl, by decide⟩, rfl, rfl⟩

theorem witness_ConsumerSnapshotDraws :
    (holding true).cSeen < (holding true).headHist.length ∧ ConsumerMaySee (holding true) 0 0 ∧
    ConsumerMaySee (holding true) 1 3 ∧ ConsumerMaySee (holding false) 1 3 :=
  ⟨by decide, ⟨rfl, by decide⟩, ⟨rfl, by decide⟩, rfl, rfl⟩

theorem witness_ViewBeyondHistoryStops :
    (StepsEnabled (facing (ring true 0 0 [0] [0] 1 1) (onP [1] 0) []) ∧ (onP [1] 0).port = .p ∧ (onP [1] 0).src.length = 1 ∧
      (ring true 0 0 [0] [0] 1 1).portP = .idle ∧ (ring true 0 0 [0] [0] 1 1).tailHist.length ≤ 1) ∧
    (StepsEnabled (facing (ring false 0 0 [] [] 0 0) (onC 0) []) ∧ (onC 0).port = .c ∧
      (ring false 0 0 [] [] 0 0).portC = .idle ∧ (ring false 0 0 [] [] 0 0).headHist = []) :=
  ⟨⟨⟨rfl, rfl⟩, by decide⟩, ⟨rfl, rfl⟩, by decide⟩

theorem witness_ViewsNeverGoBack :
    (RingInv (facing (holding true) onM [popMove]) ∧ resets (facing (holding true) onM [popMove]) = false ∧
      after State.cSeen (step (facing (holding true) onM [popMove])) = some 1) ∧
    RingInv (facing (drained true) onM [resetMove]) ∧ resets (facing (drained true) onM [resetMove]) = true ∧
      after State.cSeen (step (facing (drained true) onM [resetMove])) = some 0 :=
  ⟨⟨inv_facing (inv_holding true) _ _, by decide⟩, inv_facing (inv_drained true) _ _, by decide⟩

/-- A stale answer and a fresh one, on each side. -/
theorem witness_SnapshotsAreConservative :
    RingInv (holding true) ∧ (viewHead (holding true)).map Prod.fst = some 0 ∧ (viewTail (holding true)).map Prod.fst = some 0 ∧
    RingInv (holding false) ∧ (holding false).cfg.staleViews = false ∧ (viewHead (holding false)).map Prod.fst = some 3 :=
  ⟨inv_holding true, by decide, by decide, inv_holding false, by decide⟩

/-! ## Witnesses: PUSH -/

theorem witness_PushOfNothingIsNoOp :
    StepsEnabled (facing filled (onP [] 0) []) ∧ (onP [] 0).port = .p ∧ filled.portP = .idle ∧ (onP [] 0).src = [] :=
  ⟨⟨rfl, rfl⟩, by decide⟩

theorem witness_PushIssueKeepsWhatFits :
    StepsEnabled (facing (holding true) (onP [1, 2] 0) []) ∧ (onP [1, 2] 0).port = .p ∧ (holding true).portP = .idle ∧
    (onP [1, 2] 0).src.length = 2 ∧ (holding true).pSeen < (holding true).tailHist.length := ⟨⟨rfl, rfl⟩, by decide⟩

/-- The first clause on a ring that only looks full, the second on a full one. -/
theorem witness_FullRingDropsWholeBatch :
    (StepsEnabled (facing (ring true 7 4 [0, 7] [0, 4] 0 1) (onP [1] 0) []) ∧ (onP [1] 0).src.length = 1 ∧
      (viewTail (facing (ring true 7 4 [0, 7] [0, 4] 0 1) (onP [1] 0) [])).map Prod.fst = some 0 ∧ free ⟨3, true⟩ 7 0 = 0) ∧
    StepsEnabled (facing filled (onP [1] 0) []) ∧ RingInv (facing filled (onP [1] 0) []) ∧ isFull filled = true :=
  ⟨⟨⟨rfl, rfl⟩, by decide⟩, ⟨rfl, rfl⟩, inv_facing inv_filled _ _, by decide⟩

/-- A completion of the smallest and of the largest transfer. -/
theorem witness_PushCompletionStores :
    (StepsEnabled (facing { holding true with portP := .pushBusy 1 [20] } onM [.completeP]) ∧ ([20] : List Frame).length = 1) ∧
    StepsEnabled (facing { drained true with portP := .pushBusy 7 [1, 2, 3, 4, 5, 6, 7] } onM [.completeP]) ∧
    7 ≤ (drained true).cfg.capacity - 1 ∧ ([1, 2, 3, 4, 5, 6, 7] : List Frame).length = 7 :=
  ⟨⟨⟨rfl, rfl⟩, rfl⟩, ⟨rfl, rfl⟩, by decide⟩

theorem witness_PushIssueFrame :
    after State.portP (exec (.push 2) (facing (holding true) (onP [1, 2] 0) [])) = some (.pushBusy 2 [1, 2]) := by decide

theorem witness_PushKeepsFirstFramesInOrder :
    RingInv (facing (holding true) onM [pushMove, .completeP]) ∧ StepsEnabled (facing (holding true) onM [pushMove, .completeP]) ∧
    (holding true).portP = .idle ∧ decode 0x40000002#32 = .ok (.push 2) ∧ ([30, 31] : List Frame).length = 2 :=
  ⟨inv_facing (inv_holding true) _ _, ⟨rfl, rfl⟩, by decide⟩

theorem witness_OversizePushFillsEmptyRing :
    RingInv (facing (drained false) onM [callPush [1, 2, 3, 4, 5, 6, 7, 8] 0, .completeP]) ∧
    StepsEnabled (facing (drained false) onM [callPush [1, 2, 3, 4, 5, 6, 7, 8] 0, .completeP]) ∧
    (drained false).cfg.staleViews = false ∧ (drained false).portP = .idle ∧ isEmpty (drained false) = true ∧
    (drained false).cfg.capacity ≤ ([1, 2, 3, 4, 5, 6, 7, 8] : List Frame).length :=
  ⟨inv_facing (inv_drained false) _ _, ⟨rfl, rfl⟩, by decide⟩

/-! ## Witnesses: POP -/

theorem witness_PopOfNothingIsNoOp :
    StepsEnabled (facing (holding true) (onC 0) []) ∧ (onC 0).port = .c ∧ (holding true).portC = .idle := ⟨⟨rfl, rfl⟩, by decide⟩

theorem witness_PopIssueTakesWhatIsThere :
    StepsEnabled (facing (holding true) (onC 1) []) ∧ (onC 1).port = .c ∧ (holding true).portC = .idle ∧
    (holding true).cSeen < (holding true).headHist.length := ⟨⟨rfl, rfl⟩, by decide⟩

/-- The first clause on a ring that only looks empty, the second on an empty one. -/
theorem witness_EmptyRingPopsNothing :
    (StepsEnabled (facing (holding true) (onC 0) []) ∧ (viewHead (facing (holding true) (onC 0) [])).map Prod.fst = some 0 ∧
      available ⟨3, true⟩ 0 0 = 0) ∧
    StepsEnabled (facing (drained true) (onC 0) []) ∧ RingInv (facing (drained true) (onC 0) []) ∧ isEmpty (drained true) = true :=
  ⟨⟨⟨rfl, rfl⟩, by decide⟩, ⟨rfl, rfl⟩, inv_facing (inv_drained true) _ _, by decide⟩

/-- The second clause needs a slot that nothing has written (V-C12). -/
theorem witness_PopCompletionReturns :
    (StepsEnabled (facing popping onM [.completeC]) ∧ popping.portC = .popBusy 2 ∧
      memRead popping.slot ((popping.tail + 0) % popping.cfg.capacity) = ([1, 2] : List Frame)[0]? ∧
      memRead popping.slot ((popping.tail + 1) % popping.cfg.capacity) = ([1, 2] : List Frame)[1]?) ∧
    StepsEnabled (facing { popping with slot := [] } onM [.completeC]) ∧
    memRead [] ((popping.tail + 0) % popping.cfg.capacity) = none := ⟨⟨⟨rfl, rfl⟩, by decide⟩, ⟨rfl, rfl⟩, rfl⟩

theorem witness_PopIssueFrame :
    after State.portC (exec (.pop 2) (facing (holding true) (onC 1) [])) = some (.popBusy 2) := by decide

theorem witness_PopReturnsOldestFrames :
    RingInv (facing (holding true) onM [popMove, .completeC]) ∧ StepsEnabled (facing (holding true) onM [popMove, .completeC]) ∧
    (holding true).portC = .idle ∧ decode 0x80000002#32 = .ok (.pop 2) :=
  ⟨inv_facing (inv_holding true) _ _, ⟨rfl, rfl⟩, by decide⟩

/-! ## Witnesses: RESET -/

theorem witness_ResetEmptiesRing :
    (StepsEnabled (facing (holding true) onM []) ∧ onM.port = .m ∧ (holding true).portP = .idle ∧ (holding true).portC = .idle) ∧
    StepsEnabled (facing popping onM []) ∧ (popping.portP ≠ .idle ∨ popping.portC ≠ .idle) :=
  ⟨⟨⟨rfl, rfl⟩, by decide⟩, ⟨rfl, rfl⟩, by decide⟩

theorem witness_ResetFrame : after State.head (exec .reset (facing (holding true) onM [])) = some 0 := by decide

theorem witness_ResetIsIdempotent :
    StepsEnabled (facing (holding true) onM []) ∧ onM.port = .m ∧ (holding true).portP = .idle ∧ (holding true).portC = .idle ∧
    after State.tail (exec .reset (facing (holding true) onM [])) = some 0 := ⟨⟨rfl, rfl⟩, by decide⟩

theorem witness_AfterResetNothingIsLive :
    StepsEnabled (facing (holding true) onM []) ∧ onM.port = .m ∧ (holding true).portP = .idle ∧ (holding true).portC = .idle ∧
    after State.cSeen (exec .reset (facing (holding true) onM [])) = some 0 ∧ (onC 5).port = .c ∧
    (onP [1, 2] 5).port = .p ∧ (onP [1, 2] 5).src.length = 2 := ⟨⟨rfl, rfl⟩, by decide⟩

/-! ## Witnesses: power-on and storage -/

theorem witness_PowerOnValues : State.reset = State.powerOn ⟨3, true⟩ [] ∧ (0 : Nat) < (State.powerOn ⟨1, false⟩ []).cfg.capacity := by
  decide

theorem witness_InvariantAtPowerOn : (Config.mk 1 false).wf = true ∧ (Config.mk 3 true).wf = true := by decide

theorem witness_FrameBytesAreLittleEndian : (0 : Nat) < 8 ∧ (7 : Nat) < 8 := by decide

/-- One run, and two. -/
theorem witness_TransferIsAtMostTwoRuns :
    (1 < (Config.mk 3 true).capacity ∧ 7 ≤ (Config.mk 3 true).capacity - 1 ∧ ¬ (Config.mk 3 true).capacity < 1 + 7) ∧
    7 < (Config.mk 3 true).capacity ∧ (Config.mk 3 true).capacity < 7 + 2 := by decide

theorem witness_CopyOrderIsUnobservable :
    (holding true).slot.wf (Config.mk 3 true).capacity ∧ 2 ≤ (Config.mk 3 true).capacity - 1 ∧
    List.Perm [(0, (91 : Frame)), (7, 90)] ((slotRun ⟨3, true⟩ 7 2).zip [90, 91]) :=
  ⟨by decide, by decide, List.Perm.swap (7, (90 : Frame)) (0, 91) []⟩

theorem witness_LiveCountAndPredicates :
    (RingInv filled ∧ isFull filled = true) ∧ RingInv (drained true) ∧ isEmpty (drained true) = true :=
  ⟨⟨inv_filled, by decide⟩, inv_drained true, by decide⟩

/-! ## Witnesses: whole-machine rules -/

/-- A step that stores, and its next state. -/
theorem witness_StepKeepsInvariant :
    RingInv (facing pushing onM [.completeP]) ∧ after State.head (step (facing pushing onM [.completeP])) = some 5 :=
  ⟨inv_facing inv_pushing _ _, by decide⟩

/-- A run from power-on: a PUSH of two frames, then a POP of one. -/
def shortRun : List Move := [callPush [50, 51] 0, .completeP, callPop 1 1, .completeC]

theorem witness_ViewsLagWithinOneLap :
    (Config.mk 3 true).wf = true ∧
    after (fun s => (s.head, s.tail, s.cSeen, s.headHist[1]?, s.pSeen, s.tailHist[0]?))
      (runSteps 4 (State.powerOn ⟨3, true⟩ shortRun)) = some (2, 1, 1, some 2, 0, some 0) := by decide

theorem witness_TotalsCountTransfers :
    (RingInv (facing pushing onM [.completeP]) ∧ resets (facing pushing onM [.completeP]) = false ∧
      accepts (facing pushing onM [.completeP]) = [20, 21]) ∧
    (RingInv (facing popping onM [.completeC]) ∧ resets (facing popping onM [.completeC]) = false ∧
      after (fun s => returnedIn s.resultsC) (step (facing popping onM [.completeC])) = some [1, 2]) ∧
    RingInv (facing (holding true) onM [resetMove]) ∧ resets (facing (holding true) onM [resetMove]) = true ∧
      after State.tail (step (facing (holding true) onM [resetMove])) = some 0 :=
  ⟨⟨inv_facing inv_pushing _ _, by decide⟩, ⟨inv_facing inv_popping _ _, by decide⟩,
    inv_facing (inv_holding true) _ _, by decide⟩

theorem witness_LiveSlotsAreWritten :
    (Config.mk 3 true).wf = true ∧
    after (fun s => (s.fault, used s.cfg s.head s.tail)) (runSteps 4 (State.powerOn ⟨3, true⟩ shortRun)) = some (.noFault, 1) := by
  decide

theorem witness_UnwrittenSlotIsUnreachable :
    (Config.mk 1 false).wf = true ∧
    after State.resultsC (runSteps 4 (State.powerOn ⟨1, false⟩ shortRun)) = some [.popped 1 [50]] := by decide

/-- A PUSH stores while frames are live and a POP is in flight. -/
theorem witness_NoStepOverrunsLiveSlots :
    RingInv (facing { pushing with portC := .popBusy 2, cSeen := 1 } onM [.completeP]) ∧
    0 < used pushing.cfg pushing.head pushing.tail ∧
    after (fun s => memRead s.slot 3) (step (facing { pushing with portC := .popBusy 2, cSeen := 1 } onM [.completeP])) =
      some (some 20) :=
  ⟨⟨rfl, inv_popping.storage, inv_popping.heads, inv_pushing.tails, by decide, by decide, fun _ _ e => by cases e; decide,
    fun _ e => by cases e; decide, inv_pushing.written⟩, by decide⟩

/-- A run of four steps without RESET, from a state with frames live. -/
theorem witness_RingIsFifo :
    RingInv (facing (holding true) onM shortRun) ∧ noResetOver 4 (facing (holding true) onM shortRun) = true ∧
    after (fun s => (returnedIn s.resultsC, live s)) (runSteps 4 (facing (holding true) onM shortRun)) =
      some ([1], [some 2, some 3, some 50, some 51]) := ⟨inv_facing (inv_holding true) _ _, by decide⟩

/-- The same four steps on a full ring, whose PUSH is dropped. -/
theorem witness_FramesAreConserved :
    RingInv (facing filled onM shortRun) ∧ noResetOver 4 (facing filled onM shortRun) = true ∧
    offeredOver 4 (facing filled onM shortRun) = 2 ∧ droppedOver 4 (facing filled onM shortRun) = 2 ∧
    after (fun s => returnedIn s.resultsC) (runSteps 4 (facing filled onM shortRun)) = some [1] :=
  ⟨inv_facing inv_filled _ _, by decide⟩

/-- A step of each kind that writes: port P's completion, port C's completion, RESET. -/
theorem witness_SingleWriter :
    after State.head (step (facing pushing onM [.completeP])) = some 5 ∧
    after State.tail (step (facing popping onM [.completeC])) = some 2 ∧
    after State.head (step (facing (holding true) onM [resetMove])) = some 0 := by decide

theorem witness_IndicesOnlyAdvance :
    (RingInv (facing pushing onM [.completeP]) ∧ resets (facing pushing onM [.completeP]) = false ∧
      after State.headHist (step (facing pushing onM [.completeP])) = some [0, 3, 5]) ∧
    RingInv (facing popping onM [.completeC]) ∧ resets (facing popping onM [.completeC]) = false ∧
      after State.tailHist (step (facing popping onM [.completeC])) = some [0, 2] :=
  ⟨⟨inv_facing inv_pushing _ _, by decide⟩, inv_facing inv_popping _ _, by decide⟩

theorem witness_ResultsAreAppended :
    after State.resultsP (step (facing pushing onM [.completeP])) = some [.ack] ∧
    after State.resultsC (step (facing popping onM [.completeC])) = some [.popped 2 [1, 2]] := by decide

theorem witness_DisciplineExcludesFaults :
    (RingInv (facing filled onM [pushMove]) ∧ StepsEnabled (facing filled onM [pushMove]) ∧
      disciplined (facing filled onM [pushMove]) = true) ∧
    RingInv (facing popping onM [.completeC]) ∧ StepsEnabled (facing popping onM [.completeC]) ∧
      disciplined (facing popping onM [.completeC]) = true :=
  ⟨⟨inv_facing inv_filled _ _, ⟨rfl, rfl⟩, by decide⟩, inv_facing inv_popping _ _, ⟨rfl, rfl⟩, by decide⟩

/-- Port P busy while the consumer issues a POP, and port C busy while the producer issues a PUSH. -/
theorem witness_BusyPortsStayEnabled :
    (RingInv (facing pushing onM [popMove]) ∧ StepsEnabled (facing pushing onM [popMove]) ∧ pushing.portP ≠ .idle ∧
      nextMove (facing pushing onM [popMove]) ≠ some .completeP ∧
      after (fun s => (s.portC, s.fault)) (step (facing pushing onM [popMove])) = some (.popBusy 2, .noFault)) ∧
    RingInv (facing popping onM [pushMove]) ∧ StepsEnabled (facing popping onM [pushMove]) ∧ popping.portC ≠ .idle ∧
      nextMove (facing popping onM [pushMove]) ≠ some .completeC ∧
      after (fun s => (s.portP, s.fault)) (step (facing popping onM [pushMove])) = some (.pushBusy 2 [30, 31], .noFault) :=
  ⟨⟨inv_facing inv_pushing _ _, ⟨rfl, rfl⟩, by decide⟩, inv_facing inv_popping _ _, ⟨rfl, rfl⟩, by decide⟩

/-- The faulting steps: a second PUSH on a busy port P (V-P15), and a RESET during a POP (program P5). -/
theorem witness_BusyPortsStayEnabled_faults :
    (RingInv (facing pushing onM [pushMove]) ∧ StepsEnabled (facing pushing onM [pushMove]) ∧ pushing.portP ≠ .idle ∧
      nextMove (facing pushing onM [pushMove]) ≠ some .completeP ∧
      after State.fault (step (facing pushing onM [pushMove])) = some .portBusy) ∧
    RingInv (facing popping onM [resetMove]) ∧ StepsEnabled (facing popping onM [resetMove]) ∧ popping.portC ≠ .idle ∧
      nextMove (facing popping onM [resetMove]) ≠ some .completeC ∧
      after State.fault (step (facing popping onM [resetMove])) = some .resetBusy :=
  ⟨⟨inv_facing inv_pushing _ _, ⟨rfl, rfl⟩, by decide⟩, inv_facing inv_popping _ _, ⟨rfl, rfl⟩, by decide⟩

/-- A completion asked of an idle port P while port C is busy, and the other way round; an idle block; a PUSH in flight. -/
theorem witness_SilentEnvironmentFinishes :
    (StepsEnabled (facing popping onM [.completeP]) ∧ popping.portP = .idle) ∧
    (StepsEnabled (facing pushing onM [.completeC]) ∧ pushing.portC = .idle) ∧
    (StepsEnabled (drained true) ∧ (drained true).schedule = [] ∧ (drained true).portP = .idle ∧ (drained true).portC = .idle) ∧
    RingInv pushing ∧ StepsEnabled pushing ∧ pushing.schedule = [] ∧ pushing.portP ≠ .idle :=
  ⟨⟨⟨rfl, rfl⟩, rfl⟩, ⟨⟨rfl, rfl⟩, rfl⟩, ⟨⟨rfl, rfl⟩, by decide⟩, inv_pushing, ⟨rfl, rfl⟩, by decide⟩

theorem witness_PushThenPopIsIdentity :
    RingInv (facing (drained false) onM [callPush [1, 2, 3, 4, 5, 6, 7] 9, .completeP, callPop 8 9, .completeC]) ∧
    StepsEnabled (facing (drained false) onM [callPush [1, 2, 3, 4, 5, 6, 7] 9, .completeP, callPop 8 9, .completeC]) ∧
    (drained false).cfg.staleViews = false ∧ (drained false).portP = .idle ∧ (drained false).portC = .idle ∧
    isEmpty (drained false) = true ∧ ([1, 2, 3, 4, 5, 6, 7] : List Frame).length < (drained false).cfg.capacity :=
  ⟨inv_facing (inv_drained false) _ _, ⟨rfl, rfl⟩, by decide⟩

end Sys2Proof.Tests
end

section
/-! Every command and every step is guarded by `whenRunning` (00_scope.md R10, R203), so what a block that may not step answers is
read off that one check. -/

namespace Sys2Proof.Machine

/-- The guard reads only the configuration and the fault register. -/
theorem whenRunning_congr {s s' : State} (hcfg : s'.cfg = s.cfg) (hfault : s'.fault = s.fault) (out : Out) :
    whenRunning s' out = whenRunning s out := by
  simp only [whenRunning, hcfg, hfault]

theorem exec_guarded (i : Instr) (s : State) : ∃ out, exec i s = whenRunning s out := by
  cases i with
  | push count => exact ⟨_, rfl⟩
  | pop maxCount => exact ⟨_, rfl⟩
  | reset => exact ⟨_, rfl⟩

theorem present_guarded (word : Word) (s : State) : ∃ out, present word s = whenRunning s out := by
  unfold present
  cases decode word with
  | error e => exact ⟨_, rfl⟩
  | ok i => exact exec_guarded i s

theorem makeMove_guarded (m : Move) (s : State) : ∃ out, makeMove m s = whenRunning s out := by
  cases m with
  | present port word src draw =>
    obtain ⟨out, hout⟩ := present_guarded word (drive port word src draw s)
    exact ⟨out, hout.trans (whenRunning_congr (drive_cfg ..) (drive_fault ..) out)⟩
  | completeP => exact ⟨_, rfl⟩
  | completeC => exact ⟨_, rfl⟩

theorem step_guarded (s : State) : ∃ out, step s = whenRunning s out := by
  unfold step
  cases nextMove s with
  | none => exact ⟨_, rfl⟩
  | some m =>
    obtain ⟨out, hout⟩ := makeMove_guarded m (takeMove s)
    exact ⟨out, hout.trans (whenRunning_congr (takeMove_cfg s) (takeMove_fault s) out)⟩

/-- R10: the one configuration that is not well formed is `K = 0`. -/
theorem config_wf_eq_false {c : Config} : c.wf = false ↔ c.capacityLog2 = 0 := by
  simp [Config.wf]

/-- R10, R203: the guard refuses `K = 0`, in a faulted block too (it looks at the configuration first). -/
theorem whenRunning_of_zeroCapacity {s : State} (hK : s.cfg.capacityLog2 = 0) (out : Out) :
    whenRunning s out = .refused .zeroCapacity :=
  if_pos (config_wf_eq_false.2 hK)

/-- Settles O15: a step and a command both answer through `whenRunning`, which refuses `K = 0` whatever they would have done. -/
theorem zeroCapacityRefused : Obligations.ZeroCapacityRefused := by
  intro s hK
  constructor
  · obtain ⟨out, hstep⟩ := step_guarded s
    exact hstep.trans (whenRunning_of_zeroCapacity hK out)
  · intro i
    obtain ⟨out, hexec⟩ := exec_guarded i s
    exact hexec.trans (whenRunning_of_zeroCapacity hK out)

end Sys2Proof.Machine
end

section
/-! The issue steps of PUSH and POP: their frames (10_state.md R46), and what they add to their port's results (30_encoding.md R105).
Each is read off the effects in Laws/Effects. -/

namespace Sys2Proof.Machine

theorem PushEffect.frame {count : Nat} {s s' : State} (h : PushEffect count s s') :
    s' = { s with pSeen := s'.pSeen, portP := s'.portP, resultsP := s'.resultsP, fault := s'.fault } := by
  cases h with
  | rejected | nothing | dropped | taken => rfl

theorem PopEffect.frame {most : Nat} {s s' : State} (h : PopEffect most s s') :
    s' = { s with cSeen := s'.cSeen, portC := s'.portC, resultsC := s'.resultsC, fault := s'.fault } := by
  cases h with
  | rejected | nothing | empty | found => rfl

theorem PushEffect.resultsP_eq {count : Nat} {s s' : State} (h : PushEffect count s s') :
    s'.resultsP = s.resultsP ∨ s'.resultsP = s.resultsP ++ [.ack] := by
  cases h with
  | rejected | taken => exact .inl rfl
  | nothing | dropped => exact .inr rfl

theorem PopEffect.resultsC_eq {most : Nat} {s s' : State} (h : PopEffect most s s') :
    s'.resultsC = s.resultsC ∨ s'.resultsC = s.resultsC ++ [popResult 0 []] := by
  cases h with
  | rejected | found => exact .inl rfl
  | nothing | empty => exact .inr rfl

/-- Settles O25: the slots stand outside PUSH's frame, so every byte of them reads as before. -/
theorem pushIssueFrame : Obligations.PushIssueFrame := by
  intro s s' count h
  obtain ⟨-, heffect⟩ := execPush_effect h
  exact ⟨heffect.frame, fun a => congrArg (fun t => memByte t.slot a) heffect.frame⟩

/-- Settles O32: the slots stand outside POP's frame, so every byte of them reads as before. -/
theorem popIssueFrame : Obligations.PopIssueFrame := by
  intro s s' most h
  obtain ⟨-, heffect⟩ := execPop_effect h
  exact ⟨heffect.frame, fun a => congrArg (fun t => memByte t.slot a) heffect.frame⟩

end Sys2Proof.Machine
end

section
/-! The completion of a POP, and what a step does to the results of each port (30_encoding.md R105, 60_exceptions.md R180). -/

namespace Sys2Proof.Machine

/-- R145: a POP completion finds a slot without a frame and raises a fault, or returns the `n` frames it read and moves `tail`. -/
theorem popComplete_cases (n : Nat) (s : State) :
    popComplete n s = raiseFault .unwrittenSlot s ∨
      ∃ fs : List Frame, fs.length = n ∧ popComplete n s =
        { s with
          tail := (s.tail + n) % s.cfg.capacity
          tailHist := s.tailHist ++ [(s.tail + n) % s.cfg.capacity]
          portC := .idle
          resultsC := s.resultsC ++ [popResult n fs] } := by
  unfold popComplete
  cases hload : loadAll s.slot (slotRun s.cfg s.tail n) with
  | none => exact .inl rfl
  | some fs =>
    refine .inr ⟨fs, by simpa using loadAll_length hload, ?_⟩
    simp only [advanceIndex, wrap_eq_mod, respond]

/-- Settles O56: only port P's steps answer on port P, only RESET on port M, and only port C's steps on port C, where a POP that
finds nothing answers 0 and one that completes answers the number of frames it read. -/
theorem resultsAreAppended : Obligations.ResultsAreAppended := by
  intro s s' hstep
  obtain ⟨-, heffect⟩ := step_effect hstep
  cases heffect with
  | idle | skipP | skipC | illegal => exact ⟨rfl, .inl rfl, .inl rfl, .inl rfl⟩
  | stored => exact ⟨rfl, .inr rfl, .inl rfl, .inl rfl⟩
  | returned n =>
    rcases popComplete_cases n (takeMove s) with hpop | ⟨fs, rfl, hpop⟩
    · simp [hpop]
    · rw [hpop]
      exact ⟨rfl, .inl rfl, .inl rfl, .inr ⟨fs, rfl⟩⟩
  | push b count _ _ _ he =>
    refine ⟨?_, he.resultsP_eq, ?_, ?_⟩ <;> rw [he.frame]
    exacts [rfl, .inl rfl, .inl rfl]
  | pop b most _ _ _ he =>
    refine ⟨?_, ?_, ?_, he.resultsC_eq.imp_right fun hres => ⟨[], hres⟩⟩ <;> rw [he.frame]
    exacts [rfl, .inl rfl, .inl rfl]
  | reset _ _ _ _ he =>
    cases he with
    | rejected => exact ⟨rfl, .inl rfl, .inl rfl, .inl rfl⟩
    | done => exact ⟨rfl, .inl rfl, .inr rfl, .inl rfl⟩

end Sys2Proof.Machine
end

section
/-! What the invariant says of the indices and the totals (10_state.md R33, R34, 20_memory.md R84). -/

namespace Sys2Proof.Machine

/-- R33, R34: an index register is a `K`-bit value, being the last entry of its history. -/
theorem HistoryOk.now_lt {c : Config} {hist : List Nat} {now seen : Nat} (h : HistoryOk c hist now seen) : now < c.capacity :=
  h.range now (List.mem_of_getLast? h.last)

/-- An index and its history as power-on and RESET set them (10_state.md R47). -/
theorem historyOk_initial (c : Config) : HistoryOk c [0] 0 0 where
  first := rfl
  last := rfl
  range := by simpa using capacity_pos c
  view := Nat.one_pos

theorem travelled_mono (c : Config) (hist : List Nat) {j k : Nat} (h : j ≤ k) : travelled c hist j ≤ travelled c hist k := by
  fun_induction travelled c hist j generalizing k with
  | case1 a b hist j ih =>
    obtain ⟨k, rfl⟩ := Nat.exists_eq_add_of_le' (Nat.one_le_of_lt h)
    exact Nat.add_le_add_left (ih (Nat.le_of_succ_le_succ h)) _
  | case2 => exact Nat.zero_le _

/-- R84: `T_v <= T`. -/
theorem RingInv.poppedSeen_le {s : State} (h : RingInv s) : poppedSeen s ≤ poppedTotal s :=
  travelled_mono _ _ (Nat.le_sub_one_of_lt h.tails.view)

/-- R84: `H_v <= H`. -/
theorem RingInv.pushedSeen_le {s : State} (h : RingInv s) : pushedSeen s ≤ pushedTotal s :=
  travelled_mono _ _ (Nat.le_sub_one_of_lt h.heads.view)

/-- R35, R41: the PUSH in flight is of 1 to `C - 1` frames, since `H + n - T_v` is at most that and `T_v <= H`. -/
theorem RingInv.pushBusy_count {s : State} (h : RingInv s) {n : Nat} {fs : List Frame} (hbusy : s.portP = .pushBusy n fs) :
    1 ≤ n ∧ n ≤ s.cfg.capacity - 1 := by
  obtain ⟨hpos, -, hfits⟩ := h.pushing n fs hbusy
  have := h.poppedSeen_le
  have := h.lag
  have := h.pushedSeen_le
  omega

/-- R35, R42: the POP in flight is of 1 to `C - 1` frames, since `T + n <= H_v <= H` and `H - T` is at most `C - 1`. -/
theorem RingInv.popBusy_count {s : State} (h : RingInv s) {n : Nat} (hbusy : s.portC = .popBusy n) :
    1 ≤ n ∧ n ≤ s.cfg.capacity - 1 := by
  obtain ⟨hpos, -, hthere⟩ := h.popping n hbusy
  have := h.pushedSeen_le
  have := h.lap
  have := h.poppedSeen_le
  omega

/-- R37: `head = tail` says that no index difference is left. -/
theorem RingInv.isEmpty_iff {s : State} (h : RingInv s) : isEmpty s = true ↔ used s.cfg s.head s.tail = 0 := by
  rw [isEmpty, beq_iff_eq, used_eq_zero h.heads.now_lt h.tails.now_lt]

@[simp] theorem live_length (s : State) : (live s).length = used s.cfg s.head s.tail := by simp [live]

/-- Settles O44: `live` lists one slot for each unit of `used`, which is a remainder modulo `C`. -/
theorem liveCountAndPredicates : Obligations.LiveCountAndPredicates := by
  intro s hinv
  refine ⟨live_length s, ?_, ?_, ?_⟩
  · rw [live_length]
    exact Nat.le_sub_one_of_lt (used_lt _ _ _)
  · rw [hinv.isEmpty_iff, ← live_length, List.length_eq_zero_iff]
  · rw [isFull, beq_iff_eq, live_length]

end Sys2Proof.Machine
end

section
/-! Power-on (10_state.md R47). -/

namespace Sys2Proof.Machine

/-- Settles O38: R47's values are the ones `State.powerOn` writes; an empty storage holds no frame in any slot. -/
theorem powerOnValues : Obligations.PowerOnValues := by
  rintro c moves _ rfl
  exact ⟨memRead_nil, rfl, rfl, rfl, rfl, rfl, rfl, rfl, rfl, rfl, rfl, rfl, rfl⟩

/-- Settles O39: `Config.vectors` is `K = 3` with stale views. -/
theorem resetIsPowerOnOfVectors : Obligations.ResetIsPowerOnOfVectors := rfl

/-- Nothing has been transferred, nothing is in flight and no slot is live. -/
theorem ringInv_powerOn {c : Config} (moves : List Move) (hwf : c.wf = true) : RingInv (State.powerOn c moves) where
  capacity := hwf
  storage := powerOn_slot_wf c moves
  heads := historyOk_initial c
  tails := historyOk_initial c
  lag := Nat.le_refl 0
  lap := Nat.zero_le _
  pushing := fun _ _ hbusy => nomatch hbusy
  popping := fun _ hbusy => nomatch hbusy
  written := fun i hi => absurd (hi.trans_eq (used_self c 0)) (Nat.not_lt_zero i)

/-- Settles O40: power-on meets the invariant, and `State.reset` is power-on with `K = 3`. -/
theorem invariantAtPowerOn : Obligations.InvariantAtPowerOn :=
  ⟨fun _ moves => ringInv_powerOn moves, ringInv_powerOn [] rfl⟩

end Sys2Proof.Machine
end

section
/-! How a step moves the indices (10_state.md R35): it leaves them, or is a completion, or is a RESET that is carried out. -/

namespace Sys2Proof.Machine

/-- No index register and no history of one is written. -/
def SameIndices (s s' : State) : Prop :=
  (s'.headHist = s.headHist ∧ s'.head = s.head) ∧ (s'.tailHist = s.tailHist ∧ s'.tail = s.tail)

theorem PushEffect.sameIndices {count : Nat} {s s' : State} (h : PushEffect count s s') : SameIndices s s' := by
  rw [h.frame]
  exact ⟨⟨rfl, rfl⟩, rfl, rfl⟩

theorem PopEffect.sameIndices {most : Nat} {s s' : State} (h : PopEffect most s s') : SameIndices s s' := by
  rw [h.frame]
  exact ⟨⟨rfl, rfl⟩, rfl, rfl⟩

theorem sameIndices_raiseFault (code : FaultCode) (s : State) : SameIndices s (raiseFault code s) :=
  ⟨⟨raiseFault_headHist code s, raiseFault_head code s⟩, raiseFault_tailHist code s, raiseFault_tail code s⟩

/-- R161: a RESET presented on port M with both ports idle is carried out. -/
theorem resets_of_idle {s : State} {word : Word} {src : List Frame} {draw : Nat}
    (hm : nextMove s = some (.present .m word src draw)) (hd : decode word = .ok .reset) (hp : s.portP = .idle)
    (hc : s.portC = .idle) : resets s = true := by
  simp [resets, hm, hd, resetCheck, hp, hc]

/-- R78: without a RESET, a step writes an index only by completing that index's port. -/
theorem StepEffect.indices {s s' : State} (h : StepEffect s s') (hreset : resets s = false) :
    SameIndices s s' ∨
    (∃ n fs, s.portP = .pushBusy n fs ∧
      s'.head = (s.head + n) % s.cfg.capacity ∧ s'.headHist = s.headHist ++ [s'.head] ∧
      s'.tailHist = s.tailHist ∧ s'.tail = s.tail) ∨
    (∃ n, s.portC = .popBusy n ∧
      s'.tail = (s.tail + n) % s.cfg.capacity ∧ s'.tailHist = s.tailHist ++ [s'.tail] ∧
      s'.headHist = s.headHist ∧ s'.head = s.head) := by
  cases h with
  | idle | skipP | skipC | illegal => exact .inl ⟨⟨rfl, rfl⟩, rfl, rfl⟩
  | stored n fs _ hbusy => exact .inr (.inl ⟨n, fs, hbusy, wrap_eq_mod _ _, rfl, rfl, rfl⟩)
  | returned n _ hbusy =>
    rcases popComplete_cases n (takeMove s) with hpop | ⟨fs, -, hpop⟩ <;> rw [hpop]
    · exact .inl (sameIndices_raiseFault .unwrittenSlot (takeMove s))
    · exact .inr (.inr ⟨n, hbusy, rfl, rfl, rfl, rfl⟩)
  | push _ _ _ _ _ he => exact .inl he.sameIndices
  | pop _ _ _ _ _ he => exact .inl he.sameIndices
  | reset b _ hm hd he =>
    cases he with
    | rejected => exact .inl ⟨⟨rfl, rfl⟩, rfl, rfl⟩
    | done hport hp hc =>
      rw [show b.port = .m from hport] at hm
      exact absurd (resets_of_idle hm hd hp hc) (by simp [hreset])

/-- Settles O55: an index moves by the count of the transfer that completes, which the invariant keeps within a lap. -/
theorem indicesOnlyAdvance : Obligations.IndicesOnlyAdvance := by
  intro s s' hinv hstep hreset
  obtain ⟨-, heffect⟩ := step_effect hstep
  rcases heffect.indices hreset with hsame | ⟨n, fs, hbusy, hhead, hhist, htail⟩ | ⟨n, hbusy, htail, hhist, hhead⟩
  · exact hsame.imp .inl .inl
  · obtain ⟨hpos, hmax⟩ := hinv.pushBusy_count hbusy
    exact ⟨.inr ⟨n, hpos, hmax, hhead, hhist⟩, .inl htail⟩
  · obtain ⟨hpos, hmax⟩ := hinv.popBusy_count hbusy
    exact ⟨.inl hhead, .inr ⟨n, hpos, hmax, htail, hhist⟩⟩

end Sys2Proof.Machine
end

section
/-! How far an index travelled (20_memory.md R84): the distance along its history, modulo the capacity, is the index. -/

namespace Sys2Proof.Machine

/-- Publishing more entries moves no earlier entry. -/
theorem travelled_append (c : Config) {hist : List Nat} (more : List Nat) {j : Nat} (hj : j < hist.length) :
    travelled c (hist ++ more) j = travelled c hist j := by
  induction hist generalizing j with
  | nil => exact absurd hj (Nat.not_lt_zero j)
  | cons a hist ih =>
    cases hist with
    | nil => obtain rfl := Nat.lt_one_iff.1 hj; cases more <;> rfl
    | cons b hist =>
      cases j with
      | zero => rfl
      | succ j => exact congrArg (used c b a + ·) (ih (Nat.lt_of_succ_lt_succ hj))

/-- Publishing one entry adds its distance from the entry before. -/
theorem travelled_concat (c : Config) {hist : List Nat} {now : Nat} (hlast : hist.getLast? = some now) (next : Nat) :
    travelled c (hist ++ [next]) hist.length = travelled c hist (hist.length - 1) + used c next now := by
  induction hist with
  | nil => cases hlast
  | cons a hist ih =>
    cases hist with
    | nil => cases hlast; simp [travelled]
    | cons b hist =>
      have := ih (by simpa using hlast)
      simp only [List.cons_append, List.length_cons, Nat.add_sub_cancel, travelled] at this ⊢
      omega

theorem travelled_mod {c : Config} {hist : List Nat} {first v j : Nat} (hfirst : hist.head? = some first)
    (hrange : ∀ w ∈ hist, w < c.capacity) (hv : hist[j]? = some v) :
    (first + travelled c hist j) % c.capacity = v := by
  induction hist generalizing first j with
  | nil => cases hfirst
  | cons a hist ih =>
    cases hfirst
    have ha := hrange a List.mem_cons_self
    cases j with
    | zero =>
      cases hv
      simpa [travelled] using Nat.mod_eq_of_lt ha
    | succ j =>
      cases hist with
      | nil => cases hv
      | cons b hist =>
        have hb := hrange b (by simp)
        have hrest := ih rfl (fun w hw => hrange w (List.mem_cons_of_mem _ hw)) hv
        rw [travelled, ← Nat.add_assoc, Nat.add_mod, add_used_mod hb ha, ← Nat.mod_eq_of_lt hb, ← Nat.add_mod,
          Nat.mod_eq_of_lt hb, hrest]

section
variable {c : Config} {hist : List Nat} {now seen : Nat}

theorem HistoryOk.getElem?_last (h : HistoryOk c hist now seen) : hist[hist.length - 1]? = some now := by
  rw [← List.getLast?_eq_getElem?, h.last]

theorem HistoryOk.travelled_mod (h : HistoryOk c hist now seen) {j v : Nat} (hv : hist[j]? = some v) :
    travelled c hist j % c.capacity = v := by
  simpa using Machine.travelled_mod h.first h.range hv

/-- A snapshot moves the view to another entry. -/
theorem HistoryOk.withView (h : HistoryOk c hist now seen) {j v : Nat} (hv : hist[j]? = some v) : HistoryOk c hist now j :=
  ⟨h.first, h.last, h.range, (List.getElem?_eq_some_iff.1 hv).1⟩

/-- A completion publishes the index. -/
theorem HistoryOk.publish (h : HistoryOk c hist now seen) {next : Nat} (hnext : next < c.capacity) :
    HistoryOk c (hist ++ [next]) next seen where
  first := by simp [List.head?_append, h.first]
  last := by simp
  range v hv := by
    rcases List.mem_append.1 hv with hv | hv
    · exact h.range v hv
    · obtain rfl := List.mem_singleton.1 hv; exact hnext
  view := by have := h.view; simp; omega

/-- The total grows by the frames transferred. -/
theorem HistoryOk.travelled_publish (h : HistoryOk c hist now seen) {n : Nat} (hn : n < c.capacity) :
    travelled c (hist ++ [advanceIndex c now n]) ((hist ++ [advanceIndex c now n]).length - 1) =
      travelled c hist (hist.length - 1) + n := by
  rw [List.length_append, List.length_singleton, Nat.add_sub_cancel, travelled_concat c h.last, advanceIndex, wrap_eq_mod,
    used_advance h.now_lt hn]

end

section
variable {s : State}

/-- R84: `T_v <= T <= H_v <= H <= T_v + C - 1`. -/
theorem RingInv.totals_le (h : RingInv s) :
    poppedSeen s ≤ poppedTotal s ∧ poppedTotal s ≤ pushedSeen s ∧ pushedSeen s ≤ pushedTotal s ∧
      pushedTotal s ≤ poppedSeen s + (s.cfg.capacity - 1) :=
  ⟨h.poppedSeen_le, h.lag, h.pushedSeen_le, h.lap⟩

theorem RingInv.head_eq (h : RingInv s) : s.head = pushedTotal s % s.cfg.capacity :=
  (h.heads.travelled_mod h.heads.getElem?_last).symm

theorem RingInv.tail_eq (h : RingInv s) : s.tail = poppedTotal s % s.cfg.capacity :=
  (h.tails.travelled_mod h.tails.getElem?_last).symm

/-- R84: the difference of the registers is the difference of the totals. -/
theorem RingInv.used_eq (h : RingInv s) : used s.cfg s.head s.tail = pushedTotal s - poppedTotal s := by
  have := h.totals_le
  have := capacity_pos s.cfg
  rw [h.head_eq, h.tail_eq, used_mod (by omega) (by omega)]

/-- R84: what the consumer computes from an entry of `headHist` not before its view. -/
theorem RingInv.used_headEntry (h : RingInv s) {j v : Nat} (hj : s.cSeen ≤ j) (hv : s.headHist[j]? = some v) :
    used s.cfg v s.tail = travelled s.cfg s.headHist j - poppedTotal s := by
  obtain ⟨hlt, -⟩ := List.getElem?_eq_some_iff.1 hv
  have hge : pushedSeen s ≤ travelled s.cfg s.headHist j := travelled_mono _ _ hj
  have hle : travelled s.cfg s.headHist j ≤ pushedTotal s := travelled_mono _ _ (Nat.le_sub_one_of_lt hlt)
  have := h.totals_le
  have := capacity_pos s.cfg
  rw [← h.heads.travelled_mod hv, h.tail_eq, used_mod (by omega) (by omega)]

/-- R84: what the producer computes from an entry of `tailHist` not before its view. -/
theorem RingInv.used_tailEntry (h : RingInv s) {j v : Nat} (hj : s.pSeen ≤ j) (hv : s.tailHist[j]? = some v) :
    used s.cfg s.head v = pushedTotal s - travelled s.cfg s.tailHist j := by
  obtain ⟨hlt, -⟩ := List.getElem?_eq_some_iff.1 hv
  have hge : poppedSeen s ≤ travelled s.cfg s.tailHist j := travelled_mono _ _ hj
  have hle : travelled s.cfg s.tailHist j ≤ poppedTotal s := travelled_mono _ _ (Nat.le_sub_one_of_lt hlt)
  have := h.totals_le
  have := capacity_pos s.cfg
  rw [← h.tails.travelled_mod hv, h.head_eq, used_mod (by omega) (by omega)]

/-- R77: a snapshot of the producer answers no entry before its view, not even when it answers the last. -/
theorem RingInv.pSeen_le (h : RingInv s) {j t : Nat} (hsee : ProducerMaySee s j t) : s.pSeen ≤ j := by
  obtain ⟨-, hwindow⟩ := hsee
  split at hwindow
  · exact hwindow
  · exact hwindow ▸ Nat.le_sub_one_of_lt h.tails.view

/-- R77: a snapshot of the consumer answers no entry before its view, not even when it answers the last. -/
theorem RingInv.cSeen_le (h : RingInv s) {j v : Nat} (hsee : ConsumerMaySee s j v) : s.cSeen ≤ j := by
  obtain ⟨-, hwindow⟩ := hsee
  split at hwindow
  · exact hwindow
  · exact hwindow ▸ Nat.le_sub_one_of_lt h.heads.view

end

end Sys2Proof.Machine
end

section
/-! What a transfer does to the live frames (20_memory.md R86): a PUSH completion puts its frames behind them, a POP completion
takes the oldest away. -/

namespace Sys2Proof.Machine

/-- A transfer to distinct slots is read back as it was stored. -/
theorem map_memRead_storeAll {ss : List Nat} {fs : List Frame} {m : Memory} (hnodup : ss.Nodup) (hlen : fs.length = ss.length) :
    ss.map (memRead (storeAll m ss fs)) = fs.map some := by
  refine List.ext_getElem (by simp [hlen]) fun i hi _ => ?_
  simp only [List.length_map] at hi
  rw [List.getElem_map, List.getElem_map, memRead_storeAll hnodup hlen i hi, List.getElem?_eq_getElem (hlen ▸ hi)]

/-- A PUSH completion that stays within the lap makes `n` more slots live. -/
theorem used_advance_head {c : Config} {h t n : Nat} (hh : h < c.capacity) (ht : t < c.capacity)
    (hfit : used c h t + n < c.capacity) : used c (advanceIndex c h n) t = used c h t + n := by
  have := used_mod (c := c) (h := t + (used c h t + n)) (t := t) (by omega) (by omega)
  rwa [← Nat.add_assoc, Nat.add_mod, add_used_mod hh ht, Nat.mod_eq_of_lt ht, ← Nat.mod_eq_of_lt hh, ← Nat.add_mod,
    Nat.mod_eq_of_lt hh, ← wrap_eq_mod, Nat.add_assoc, Nat.add_sub_cancel_left] at this

/-- A POP completion of live slots makes `n` fewer live. -/
theorem used_advance_tail {c : Config} {h t n : Nat} (hh : h < c.capacity) (ht : t < c.capacity) (hn : n ≤ used c h t) :
    used c h (advanceIndex c t n) = used c h t - n := by
  have hlt := used_lt c h t
  have := used_mod (c := c) (h := t + used c h t) (t := t + n) (by omega) (by omega)
  rwa [add_used_mod hh ht, ← wrap_eq_mod c (t + n), Nat.add_sub_add_left] at this

/-- The slots from `tail` on, live ones and then `n` free ones, are the live slots and the slots a PUSH of `n` frames fills. -/
theorem slotRun_used_add {c : Config} {h t : Nat} (hh : h < c.capacity) (ht : t < c.capacity) (n : Nat) :
    slotRun c t (used c h t + n) = slotRun c t (used c h t) ++ slotRun c h n := by
  rw [slotRun_add, ← slotRun_mod c (t + used c h t), add_used_mod hh ht]

/-- R85: a PUSH that fits the free space fills no live slot. -/
theorem disjoint_live_pushed {c : Config} {h t n : Nat} (hh : h < c.capacity) (ht : t < c.capacity)
    (hfit : used c h t + n < c.capacity) : List.Disjoint (slotRun c t (used c h t)) (slotRun c h n) := by
  have hnodup := slotRun_nodup (b := t) hfit.le
  rw [slotRun_used_add hh ht] at hnodup
  exact List.disjoint_of_nodup_append hnodup

theorem live_pushComplete {s : State} {n : Nat} {fs : List Frame} (hh : s.head < s.cfg.capacity) (ht : s.tail < s.cfg.capacity)
    (hfit : used s.cfg s.head s.tail + n < s.cfg.capacity) (hlen : fs.length = n) :
    live (pushComplete n fs s) = live s ++ fs.map some := by
  have hold : ∀ a ∈ slotRun s.cfg s.tail (used s.cfg s.head s.tail),
      memRead (storeAll s.slot (slotRun s.cfg s.head n) fs) a = memRead s.slot a :=
    fun a ha => memRead_storeAll_of_notMem fs (disjoint_live_pushed hh ht hfit ha)
  have hnew := map_memRead_storeAll (m := s.slot) (slotRun_nodup (c := s.cfg) (b := s.head) (n := n) (by omega))
    (by simpa using hlen)
  calc live (pushComplete n fs s)
      = (slotRun s.cfg s.tail (used s.cfg (advanceIndex s.cfg s.head n) s.tail)).map
          (memRead (storeAll s.slot (slotRun s.cfg s.head n) fs)) := rfl
    _ = live s ++ fs.map some := by
      rw [used_advance_head hh ht hfit, slotRun_used_add hh ht, List.map_append, List.map_congr_left hold, hnew, live]

/-- The state after a POP completion whose slots all hold frames (41_pop.md R145). -/
theorem popComplete_of_loadAll {s : State} {n : Nat} {fs : List Frame}
    (hload : loadAll s.slot (slotRun s.cfg s.tail n) = some fs) :
    popComplete n s =
      { s with
        tail := advanceIndex s.cfg s.tail n
        tailHist := s.tailHist ++ [advanceIndex s.cfg s.tail n]
        portC := .idle
        resultsC := s.resultsC ++ [popResult n fs] } := by
  simp only [popComplete, hload, respond]

/-- R178: a POP completion that would read an unwritten slot raises a fault. -/
theorem popComplete_of_loadAll_none {s : State} {n : Nat} (hload : loadAll s.slot (slotRun s.cfg s.tail n) = none) :
    popComplete n s = raiseFault .unwrittenSlot s := by
  simp only [popComplete, hload]

theorem live_popComplete {s : State} {n : Nat} {fs : List Frame} (hh : s.head < s.cfg.capacity) (ht : s.tail < s.cfg.capacity)
    (hn : n ≤ used s.cfg s.head s.tail) (hload : loadAll s.slot (slotRun s.cfg s.tail n) = some fs) :
    live s = fs.map some ++ live (popComplete n s) := by
  have hlive : live (popComplete n s) =
      (slotRun s.cfg (advanceIndex s.cfg s.tail n) (used s.cfg s.head (advanceIndex s.cfg s.tail n))).map (memRead s.slot) := by
    rw [popComplete_of_loadAll hload, live]
  rw [hlive, used_advance_tail hh ht hn, advanceIndex, wrap_eq_mod, slotRun_mod, ← loadAll_eq_some.1 hload, ← List.map_append,
    ← slotRun_add, Nat.add_sub_cancel' hn, live]

/-- R83 in terms of the live frames. -/
theorem written_iff (s : State) :
    (∀ i, i < used s.cfg s.head s.tail → memRead s.slot (wrap s.cfg (s.tail + i)) ≠ none) ↔ none ∉ live s := by
  simp [live, slotRun]

section
variable {s : State}

theorem RingInv.pushBusy_length (h : RingInv s) {n : Nat} {fs : List Frame} (hbusy : s.portP = .pushBusy n fs) :
    fs.length = n := by
  obtain ⟨-, hlen, -⟩ := h.pushing n fs hbusy
  exact hlen

/-- A PUSH in flight fits the free space there is. -/
theorem RingInv.pushBusy_fits (h : RingInv s) {n : Nat} {fs : List Frame} (hbusy : s.portP = .pushBusy n fs) :
    used s.cfg s.head s.tail + n < s.cfg.capacity := by
  obtain ⟨-, -, hfits⟩ := h.pushing n fs hbusy
  have := h.totals_le
  have := capacity_pos s.cfg
  rw [h.used_eq]
  omega

/-- A POP in flight takes frames that are live. -/
theorem RingInv.popBusy_le_used (h : RingInv s) {n : Nat} (hbusy : s.portC = .popBusy n) : n ≤ used s.cfg s.head s.tail := by
  obtain ⟨-, -, hthere⟩ := h.popping n hbusy
  have := h.totals_le
  rw [h.used_eq]
  omega

/-- R86: a PUSH completion puts its frames behind the live ones. -/
theorem RingInv.live_pushComplete (h : RingInv s) {n : Nat} {fs : List Frame} (hbusy : s.portP = .pushBusy n fs) :
    live (pushComplete n fs s) = live s ++ fs.map some :=
  Machine.live_pushComplete h.heads.now_lt h.tails.now_lt (h.pushBusy_fits hbusy) (h.pushBusy_length hbusy)

/-- R86: a POP completion returns the oldest live frames. -/
theorem RingInv.live_popComplete (h : RingInv s) {n : Nat} {fs : List Frame} (hbusy : s.portC = .popBusy n)
    (hload : loadAll s.slot (slotRun s.cfg s.tail n) = some fs) : live s = fs.map some ++ live (popComplete n s) :=
  Machine.live_popComplete h.heads.now_lt h.tails.now_lt (h.popBusy_le_used hbusy) hload

/-- R84: a PUSH completion adds its frames to `H`. -/
theorem RingInv.pushedTotal_pushComplete (h : RingInv s) {n : Nat} {fs : List Frame} (hbusy : s.portP = .pushBusy n fs) :
    pushedTotal (pushComplete n fs s) = pushedTotal s + n :=
  h.heads.travelled_publish (by have := h.pushBusy_fits hbusy; omega)

/-- R84: a POP completion adds its frames to `T`. -/
theorem RingInv.poppedTotal_popComplete (h : RingInv s) {n : Nat} {fs : List Frame} (hbusy : s.portC = .popBusy n)
    (hload : loadAll s.slot (slotRun s.cfg s.tail n) = some fs) : poppedTotal (popComplete n s) = poppedTotal s + n := by
  rw [popComplete_of_loadAll hload]
  exact h.tails.travelled_publish (lt_of_le_of_lt (h.popBusy_le_used hbusy) (used_lt _ _ _))

end

end Sys2Proof.Machine
end

section
/-! Every step keeps the invariant: one lemma for each update of the ring, then the commands, then the step. -/

namespace Sys2Proof.Machine

section
variable {s : State}

/-- The invariant reads neither the environment nor the fault register nor the results. -/
theorem RingInv.withRecords (h : RingInv s) (fault : FaultCode) (moves : List Move) (b : Bus) (rp rc rm : List Result) :
    RingInv { s with fault := fault, schedule := moves, bus := b, resultsP := rp, resultsC := rc, resultsM := rm } :=
  ⟨h.capacity, h.storage, h.heads, h.tails, h.lag, h.lap, h.pushing, h.popping, h.written⟩

theorem RingInv.keep_takeMove (h : RingInv s) : RingInv (takeMove s) := h.withRecords ..

theorem RingInv.keep_presented (h : RingInv s) (b : Bus) : RingInv (presented s b) := h.withRecords ..

theorem RingInv.keep_raiseFault (h : RingInv s) (code : FaultCode) : RingInv (raiseFault code s) := by
  unfold raiseFault
  split
  · exact h.withRecords ..
  · exact h

/-- The producer looks at a later entry: it sees no less free space than before. -/
theorem RingInv.withProducerView (h : RingInv s) {j t : Nat} (hsee : ProducerMaySee s j t) : RingInv { s with pSeen := j } := by
  have hmono : poppedSeen s ≤ travelled s.cfg s.tailHist j := travelled_mono _ _ (h.pSeen_le hsee)
  refine ⟨h.capacity, h.storage, h.heads, h.tails.withView hsee.1, h.lag, h.lap.trans (Nat.add_le_add_right hmono _),
    fun n fs hbusy => ?_, h.popping, h.written⟩
  obtain ⟨hpos, hlen, hfits⟩ := h.pushing n fs hbusy
  exact ⟨hpos, hlen, hfits.trans (Nat.add_le_add_right hmono _)⟩

/-- The consumer looks at a later entry: it sees no fewer frames than before. -/
theorem RingInv.withConsumerView (h : RingInv s) {j v : Nat} (hsee : ConsumerMaySee s j v) : RingInv { s with cSeen := j } := by
  have hmono : pushedSeen s ≤ travelled s.cfg s.headHist j := travelled_mono _ _ (h.cSeen_le hsee)
  refine ⟨h.capacity, h.storage, h.heads.withView hsee.1, h.tails, h.lag.trans hmono, h.lap, h.pushing, fun n hbusy => ?_,
    h.written⟩
  obtain ⟨hpos, hmax, hthere⟩ := h.popping n hbusy
  exact ⟨hpos, hmax, hthere.trans hmono⟩

theorem RingInv.startPush (h : RingInv s) {n : Nat} {fs : List Frame} (hpos : 1 ≤ n) (hlen : fs.length = n)
    (hfits : pushedTotal s + n ≤ poppedSeen s + (s.cfg.capacity - 1)) : RingInv { s with portP := .pushBusy n fs } :=
  ⟨h.capacity, h.storage, h.heads, h.tails, h.lag, h.lap,
    fun _ _ hbusy => by cases hbusy; exact ⟨hpos, hlen, hfits⟩, h.popping, h.written⟩

theorem RingInv.startPop (h : RingInv s) {n : Nat} (hpos : 1 ≤ n) (hmax : n < 2 ^ 30)
    (hthere : poppedTotal s + n ≤ pushedSeen s) : RingInv { s with portC := .popBusy n } :=
  ⟨h.capacity, h.storage, h.heads, h.tails, h.lag, h.lap, h.pushing,
    fun _ hbusy => by cases hbusy; exact ⟨hpos, hmax, hthere⟩, h.written⟩

/-- R125: the frames go to free slots, and `H` grows by what the producer knew to be free. -/
theorem RingInv.keep_pushComplete (h : RingInv s) {n : Nat} {fs : List Frame} (hbusy : s.portP = .pushBusy n fs) :
    RingInv (pushComplete n fs s) := by
  obtain ⟨-, -, hfits⟩ := h.pushing n fs hbusy
  have hview : pushedSeen (pushComplete n fs s) = pushedSeen s := travelled_append _ _ h.heads.view
  refine ⟨h.capacity, storeAll_wf _ fs h.storage fun _ => slotRun_lt, h.heads.publish (wrap_lt _ _), h.tails, ?_, ?_,
    fun _ _ hidle => (nomatch hidle), fun k hpop => ?_, ?_⟩
  · exact h.lag.trans_eq hview.symm
  · exact (h.pushedTotal_pushComplete hbusy).trans_le hfits
  · exact hview ▸ h.popping k hpop
  · rw [written_iff, h.live_pushComplete hbusy]
    simpa using (written_iff s).1 h.written

/-- R145: `T` grows by what the consumer knew to be live. -/
theorem RingInv.keep_popComplete (h : RingInv s) {n : Nat} (hbusy : s.portC = .popBusy n) : RingInv (popComplete n s) := by
  cases hload : loadAll s.slot (slotRun s.cfg s.tail n) with
  | none =>
    rw [popComplete_of_loadAll_none hload]
    exact h.keep_raiseFault _
  | some fs =>
    obtain ⟨-, -, hthere⟩ := h.popping n hbusy
    have hview : travelled s.cfg (s.tailHist ++ [advanceIndex s.cfg s.tail n]) s.pSeen = poppedSeen s :=
      travelled_append _ _ h.tails.view
    have htotal := h.poppedTotal_popComplete hbusy hload
    have hwritten : none ∉ live (popComplete n s) := fun hnone =>
      (written_iff s).1 h.written (h.live_popComplete hbusy hload ▸ List.mem_append_right _ hnone)
    rw [← written_iff] at hwritten
    rw [popComplete_of_loadAll hload] at htotal hwritten ⊢
    exact ⟨h.capacity, h.storage, h.heads, h.tails.publish (wrap_lt _ _), htotal.trans_le hthere,
      h.lap.trans_eq (by rw [← hview]; rfl), fun k fs hpush => by have := h.pushing k fs hpush; rwa [← hview] at this,
      fun _ hidle => (nomatch hidle), hwritten⟩

/-- R161: after a RESET nothing has been transferred and no slot is live. -/
theorem RingInv.keep_resetRing (h : RingInv s) (hp : s.portP = .idle) (hc : s.portC = .idle) : RingInv (resetRing s) where
  capacity := h.capacity
  storage := h.storage
  heads := historyOk_initial _
  tails := historyOk_initial _
  lag := Nat.le_refl 0
  lap := Nat.zero_le _
  pushing _ _ hbusy := nomatch hp.symm.trans hbusy
  popping _ hbusy := nomatch hc.symm.trans hbusy
  written i hi := absurd (hi.trans_eq (used_self s.cfg 0)) (Nat.not_lt_zero i)

/-- R72, R123: the frames kept fit the space that the entry answered leaves free. -/
theorem RingInv.kept_fits (h : RingInv s) {j t : Nat} (hsee : ProducerMaySee s j t) (count : Nat) :
    pushedTotal s + kept s count t ≤ travelled s.cfg s.tailHist j + (s.cfg.capacity - 1) := by
  have hlap := (h.withProducerView hsee).lap
  have : kept s count t ≤ s.cfg.capacity - 1 - used s.cfg s.head t := Nat.min_le_right _ _
  rw [h.used_tailEntry (h.pSeen_le hsee) hsee.1] at this
  change pushedTotal s ≤ travelled s.cfg s.tailHist j + (s.cfg.capacity - 1) at hlap
  omega

/-- R73, R143: the frames to take are among those that the entry answered holds. -/
theorem RingInv.taken_there (h : RingInv s) {j v : Nat} (hsee : ConsumerMaySee s j v) (most : Nat) :
    poppedTotal s + taken s most v ≤ travelled s.cfg s.headHist j := by
  have hlag := (h.withConsumerView hsee).lag
  have : taken s most v ≤ used s.cfg v s.tail := Nat.min_le_left _ _
  rw [h.used_headEntry (h.cSeen_le hsee) hsee.1] at this
  change poppedTotal s ≤ travelled s.cfg s.headHist j at hlag
  omega

end

theorem PushEffect.ringInv {count : Nat} {s s' : State} (he : PushEffect count s s') (h : RingInv s) : RingInv s' := by
  cases he with
  | rejected | nothing => exact h.withRecords ..
  | dropped j t _ _ _ _ hsee => exact (h.withProducerView hsee).withRecords ..
  | taken j t n _ _ hlen _ hsee hn hsome =>
    refine (h.withProducerView hsee).startPush (Nat.one_le_iff_ne_zero.2 hsome) ?_ (hn ▸ h.kept_fits hsee count)
    have : kept s count t ≤ count := Nat.min_le_left _ _
    rw [List.length_take]
    omega

theorem PopEffect.ringInv {most : Nat} {s s' : State} (he : PopEffect most s s') (hmost : most < 2 ^ 30) (h : RingInv s) :
    RingInv s' := by
  cases he with
  | rejected | nothing => exact h.withRecords ..
  | empty j v _ _ _ hsee => exact (h.withConsumerView hsee).withRecords ..
  | found j v n _ _ _ hsee hn hsome =>
    refine (h.withConsumerView hsee).startPop (Nat.one_le_iff_ne_zero.2 hsome) ?_ (hn ▸ h.taken_there hsee most)
    exact hn ▸ (Nat.min_le_right _ _).trans_lt hmost

theorem ResetEffect.ringInv {s s' : State} (he : ResetEffect s s') (h : RingInv s) : RingInv s' := by
  cases he with
  | rejected => exact h.withRecords ..
  | done _ hp hc => exact h.keep_resetRing hp hc

/-- R101: the operand of a POP is a 30-bit number. -/
theorem decode_pop_lt {w : Word} {most : Nat} (hd : decode w = .ok (.pop most)) : most < 2 ^ 30 := by
  have hlt : countField w < 2 ^ 30 := (w.extractLsb' 0 30).isLt
  unfold decode at hd
  split at hd
  · simp at hd
  · split at hd
    · simp only [Except.ok.injEq, Instr.pop.injEq] at hd
      exact hd ▸ hlt
    · split at hd
      · split at hd <;> simp at hd
      · simp at hd

theorem StepEffect.ringInv {s s' : State} (he : StepEffect s s') (h : RingInv s) : RingInv s' := by
  cases he with
  | idle => exact h
  | skipP | skipC => exact h.keep_takeMove
  | stored n fs _ hbusy => exact h.keep_takeMove.keep_pushComplete hbusy
  | returned n _ hbusy => exact h.keep_takeMove.keep_popComplete hbusy
  | illegal b => exact h.withRecords ..
  | push b count _ _ _ he => exact he.ringInv (h.keep_presented b)
  | pop b most _ _ hd he => exact he.ringInv (decode_pop_lt hd) (h.keep_presented b)
  | reset b _ _ _ he => exact he.ringInv (h.keep_presented b)

/-- Settles O45: each update that a step can make keeps the invariant. -/
theorem stepKeepsInvariant : Obligations.StepKeepsInvariant := by
  intro s s' hinv hstep
  obtain ⟨-, heffect⟩ := step_effect hstep
  exact heffect.ringInv hinv

end Sys2Proof.Machine
end

section
/-! Runs: what every step keeps holds after `k` steps (20_memory.md R83, R84). -/

namespace Sys2Proof.Machine

@[simp] theorem runSteps_zero (s : State) : runSteps 0 s = .next s := rfl

/-- A run of `k + 1` steps that stops nowhere is a step and then a run of `k`, for any machine of the host. -/
theorem run_succ_eq_next (M : Host.Core) {k : Nat} {s s' : M.State} :
    M.run (k + 1) s = .next s' ↔ ∃ s1, M.step s = .next s1 ∧ M.run k s1 = .next s' := by
  rw [Host.Core.run]
  cases M.step s <;> simp

theorem runSteps_succ_eq_next {k : Nat} {s s' : State} :
    runSteps (k + 1) s = .next s' ↔ ∃ s1, step s = .next s1 ∧ runSteps k s1 = .next s' :=
  run_succ_eq_next Sys2Proof.core

/-- A run in two parts. -/
theorem runSteps_add {j k : Nat} {s s1 s' : State} (hj : runSteps j s = .next s1) (hk : runSteps k s1 = .next s') :
    runSteps (j + k) s = .next s' := by
  induction j generalizing s with
  | zero => cases hj; simpa using hk
  | succ j ih =>
    obtain ⟨s2, hstep, hrest⟩ := runSteps_succ_eq_next.1 hj
    rw [Nat.succ_add]
    exact runSteps_succ_eq_next.2 ⟨s2, hstep, ih hrest⟩

theorem RingInv.run {k : Nat} {s s' : State} (h : RingInv s) (hrun : runSteps k s = .next s') : RingInv s' := by
  induction k generalizing s with
  | zero => cases hrun; exact h
  | succ k ih =>
    obtain ⟨s1, hstep, hrest⟩ := runSteps_succ_eq_next.1 hrun
    exact ih (stepKeepsInvariant s s1 h hstep) hrest

/-- The invariant holds in every state that a run from power-on reaches. -/
theorem ringInv_reachable {c : Config} {moves : List Move} {k : Nat} {s : State} (hwf : c.wf = true)
    (hrun : runSteps k (State.powerOn c moves) = .next s) : RingInv s :=
  (ringInv_powerOn moves hwf).run hrun

/-- Settles O46: the invariant bounds the totals, and within a lap index differences are differences of totals. -/
theorem viewsLagWithinOneLap : Obligations.ViewsLagWithinOneLap := by
  intro c moves k s hwf hrun
  have hinv := ringInv_reachable hwf hrun
  obtain ⟨hview, hlag, hseen, hlap⟩ := hinv.totals_le
  exact ⟨hview, hlag, hseen, Nat.sub_le_iff_le_add'.2 hlap, hinv.head_eq, hinv.tail_eq,
    fun _ _ => hinv.used_headEntry, fun _ _ => hinv.used_tailEntry⟩

/-- Settles O48: the invariant has it, in every reachable state. -/
theorem liveSlotsAreWritten : Obligations.LiveSlotsAreWritten := by
  intro c moves k s hwf hrun _ i hi
  have := (ringInv_reachable hwf hrun).written i hi
  rwa [wrap_eq_mod] at this

end Sys2Proof.Machine
end

section
/-! What a step does to the ring as a queue: it completes a PUSH, completes a POP, carries out a RESET, or leaves the indices, the
slots and the frames returned as they are. -/

namespace Sys2Proof.Machine

theorem returnedIn_append (rs rs' : List Result) : returnedIn (rs ++ rs') = returnedIn rs ++ returnedIn rs' := by
  fun_induction returnedIn rs with
  | case1 => rfl
  | case2 rs ih => exact ih
  | case3 n fs rs ih => simp [returnedIn, ih]

/-- Neither the indices nor the slots are written and no frame is returned. -/
structure Quiet (s s' : State) : Prop where
  indices : SameIndices s s'
  cfg : s'.cfg = s.cfg
  slot : s'.slot = s.slot
  returned : returnedIn s'.resultsC = returnedIn s.resultsC

/-- What a step does to the ring as a queue. -/
inductive RingMove (s : State) : State → Prop where
  /-- Nothing. -/
  | quiet (s' : State) (hquiet : Quiet s s') (haccepts : accepts s = []) (hresets : resets s = false) : RingMove s s'
  /-- A PUSH completes. -/
  | stored (n : Nat) (fs : List Frame) (hm : nextMove s = some .completeP) (hbusy : s.portP = .pushBusy n fs) :
      RingMove s (pushComplete n fs (takeMove s))
  /-- A POP completes and returns frames. -/
  | returned (n : Nat) (fs : List Frame) (hm : nextMove s = some .completeC) (hbusy : s.portC = .popBusy n)
      (hload : loadAll s.slot (slotRun s.cfg s.tail n) = some fs) : RingMove s (popComplete n (takeMove s))
  /-- A RESET is carried out. -/
  | reset (b : Bus) (hresets : resets s = true) (hp : s.portP = .idle) (hc : s.portC = .idle) :
      RingMove s (resetRing (presented s b))

/-- What the environment drives and the fault register are not part of the queue. -/
theorem quiet_withRecords (s : State) (fault : FaultCode) (moves : List Move) (b : Bus) :
    Quiet s { s with fault := fault, schedule := moves, bus := b } :=
  ⟨⟨⟨rfl, rfl⟩, rfl, rfl⟩, rfl, rfl, rfl⟩

/-- Presenting a command is quiet, so a quiet effect in the state that presents it is a quiet step. -/
theorem Quiet.of_presented {s s' : State} {b : Bus} (h : Quiet (presented s b) s') : Quiet s s' :=
  ⟨h.indices, h.cfg, h.slot, h.returned⟩

theorem PushEffect.quiet {count : Nat} {s s' : State} (h : PushEffect count s s') : Quiet s s' := by
  rw [h.frame]
  exact ⟨⟨⟨rfl, rfl⟩, rfl, rfl⟩, rfl, rfl, rfl⟩

/-- A POP that issues returns no frames: its result, if it gives one, is empty. -/
theorem PopEffect.quiet {most : Nat} {s s' : State} (h : PopEffect most s s') : Quiet s s' := by
  refine ⟨h.sameIndices, by rw [h.frame], by rw [h.frame], ?_⟩
  rcases h.resultsC_eq with hres | hres
  · rw [hres]
  · simp [hres, returnedIn_append, popResult, returnedIn]

section
variable {s : State}

/-- Only the completion of a PUSH accepts frames. -/
theorem accepts_of_present {port : Port} {word : Word} {src : List Frame} {draw : Nat}
    (hm : nextMove s = some (.present port word src draw)) : accepts s = [] := by
  simp [accepts, hm]

theorem accepts_of_completeC (hm : nextMove s = some .completeC) : accepts s = [] := by
  simp [accepts, hm]

theorem accepts_of_idle (hidle : s.portP = .idle) : accepts s = [] := by
  unfold accepts
  split
  · simp_all
  · rfl

theorem accepts_of_stored {n : Nat} {fs : List Frame} (hm : nextMove s = some .completeP) (hbusy : s.portP = .pushBusy n fs) :
    accepts s = fs := by
  simp [accepts, hm, hbusy]

/-- A RESET is carried out exactly when its word is presented on port M and both ports are idle (R161). -/
theorem resets_iff : resets s = true ↔
    ∃ word src draw, nextMove s = some (.present .m word src draw) ∧ decode word = .ok .reset ∧ s.portP = .idle ∧
      s.portC = .idle := by
  constructor
  · intro h
    unfold resets at h
    split at h
    next word src draw hm =>
      obtain ⟨hd, hcheck⟩ := of_decide_eq_true h
      simp only [resetCheck, ite_eq_right_iff, reduceCtorEq, imp_false, not_or, not_not] at hcheck
      exact ⟨word, src, draw, hm, hd, hcheck⟩
    next => cases h
  · rintro ⟨word, src, draw, hm, hd, hp, hc⟩
    exact resets_of_idle hm hd hp hc

/-- A move that presents no RESET carries none out. -/
theorem resets_eq_false (hm : ∀ word src draw, nextMove s = some (.present .m word src draw) → decode word ≠ .ok .reset) :
    resets s = false :=
  Bool.eq_false_iff.2 fun h => by
    obtain ⟨word, src, draw, hpresent, hd, -⟩ := resets_iff.1 h
    exact hm word src draw hpresent hd

/-- A move that presents another word carries no RESET out. -/
theorem resets_of_decode_ne {b : Bus} (hm : nextMove s = some (.present b.port b.word b.src b.draw))
    (hd : decode b.word ≠ .ok .reset) : resets s = false :=
  resets_eq_false fun word src draw hpresent => by
    obtain ⟨-, hword, -, -⟩ := Move.present.inj (Option.some.inj (hm.symm.trans hpresent))
    exact hword ▸ hd

end

theorem StepEffect.ringMove {s s' : State} (h : StepEffect s s') : RingMove s s' := by
  cases h with
  | idle hm => exact .quiet _ (quiet_withRecords s ..) (by simp [accepts, hm]) (resets_eq_false (by simp [hm]))
  | skipP hm hidle => exact .quiet _ (quiet_withRecords s ..) (accepts_of_idle hidle) (resets_eq_false (by simp [hm]))
  | skipC hm => exact .quiet _ (quiet_withRecords s ..) (accepts_of_completeC hm) (resets_eq_false (by simp [hm]))
  | stored n fs hm hbusy => exact .stored n fs hm hbusy
  | returned n hm hbusy =>
    cases hload : loadAll s.slot (slotRun s.cfg s.tail n) with
    | none =>
      rw [popComplete_of_loadAll_none (s := takeMove s) hload]
      exact .quiet _ ⟨sameIndices_raiseFault .unwrittenSlot (takeMove s), by simp, by simp, by simp⟩ (accepts_of_completeC hm)
        (resets_eq_false (by simp [hm]))
    | some fs => exact .returned n fs hm hbusy hload
  | illegal b e hm hd =>
    exact .quiet _ (quiet_withRecords s ..) (accepts_of_present hm) (resets_of_decode_ne hm (by simp [hd]))
  | push b count _ hm hd he =>
    exact .quiet _ he.quiet.of_presented (accepts_of_present hm) (resets_of_decode_ne hm (by simp [hd]))
  | pop b most _ hm hd he =>
    exact .quiet _ he.quiet.of_presented (accepts_of_present hm) (resets_of_decode_ne hm (by simp [hd]))
  | reset b _ hm hd he =>
    cases he with
    | rejected code _ hbad =>
      refine .quiet _ (quiet_withRecords s ..) (accepts_of_present hm) (Bool.eq_false_iff.2 fun h => hbad ?_)
      obtain ⟨_, _, _, hpresent, -, hp, hc⟩ := resets_iff.1 h
      rw [hm] at hpresent
      exact ⟨(Move.present.inj (Option.some.inj hpresent)).1, hp, hc⟩
    | done hport hp hc =>
      rw [show b.port = .m from hport] at hm
      exact .reset b (resets_of_idle hm hd hp hc) hp hc

/-- Settles O54: each of the three is written by one kind of `RingMove`, and RESET writes both indices. -/
theorem singleWriter : Obligations.SingleWriter := by
  intro s s' hstep
  obtain ⟨-, heffect⟩ := step_effect hstep
  cases heffect.ringMove with
  | quiet _ hquiet =>
    obtain ⟨⟨⟨hheads, hhead⟩, htails, htail⟩, -, hslot, -⟩ := hquiet
    simp [hheads, hhead, htails, htail, hslot]
  | stored n fs hm => exact ⟨fun _ => .inl hm, fun h => by simp [pushComplete] at h, fun _ => hm⟩
  | returned n fs hm _ hload =>
    rw [popComplete_of_loadAll (s := takeMove s) hload]
    exact ⟨fun h => by simp at h, fun _ => .inl hm, fun h => absurd rfl h⟩
  | reset b hresets => exact ⟨fun _ => .inr hresets, fun _ => .inr hresets, fun h => by simp [resetRing, presented] at h⟩

/-- Settles O50: only a PUSH completion writes slots, and it fits the free space. -/
theorem noStepOverrunsLiveSlots : Obligations.NoStepOverrunsLiveSlots := by
  intro s s' hinv hstep
  have hlive : ∀ i, i < used s.cfg s.head s.tail →
      memRead s'.slot (wrap s.cfg (s.tail + i)) = memRead s.slot (wrap s.cfg (s.tail + i)) := by
    intro i hi
    obtain ⟨-, heffect⟩ := step_effect hstep
    cases heffect.ringMove with
    | quiet _ hquiet => rw [hquiet.slot]
    | stored n fs _ hbusy =>
      have hdisjoint := disjoint_live_pushed hinv.heads.now_lt hinv.tails.now_lt (hinv.pushBusy_fits hbusy)
      have hnew := hdisjoint (mem_slotRun.2 ⟨i, hi, rfl⟩)
      simpa [pushComplete] using memRead_storeAll_of_notMem fs hnew
    | returned n fs _ _ hload => rw [popComplete_of_loadAll (s := takeMove s) hload, takeMove_slot]
    | reset b => simp [resetRing, presented]
  refine ⟨hlive, fun n hbusy => ?_⟩
  have hn := hinv.popBusy_le_used hbusy
  exact ⟨hn, fun i hi => hlive i (hi.trans_le hn)⟩

/-- Settles O19: a snapshot answers an entry from the view on, nothing else but a RESET moves a view, and RESET sets it to 0. -/
theorem viewsNeverGoBack : Obligations.ViewsNeverGoBack := by
  intro s s' hinv hstep
  obtain ⟨-, heffect⟩ := step_effect hstep
  constructor
  · intro hresets
    cases heffect with
    | idle | skipP | skipC | illegal | stored => exact ⟨Nat.le_refl _, Nat.le_refl _⟩
    | returned n => rcases popComplete_cases n (takeMove s) with hpop | ⟨fs, -, hpop⟩ <;> simp [hpop]
    | push b count _ _ _ he =>
      cases he with
      | rejected | nothing => exact ⟨Nat.le_refl _, Nat.le_refl _⟩
      | dropped j t _ _ _ _ hsee => exact ⟨hinv.pSeen_le hsee, Nat.le_refl _⟩
      | taken j t n _ _ _ _ hsee => exact ⟨hinv.pSeen_le hsee, Nat.le_refl _⟩
    | pop b most _ _ _ he =>
      cases he with
      | rejected | nothing => exact ⟨Nat.le_refl _, Nat.le_refl _⟩
      | empty j v _ _ _ hsee => exact ⟨Nat.le_refl _, hinv.cSeen_le hsee⟩
      | found j v n _ _ _ hsee => exact ⟨Nat.le_refl _, hinv.cSeen_le hsee⟩
    | reset b _ hm hd he =>
      cases he with
      | rejected => exact ⟨Nat.le_refl _, Nat.le_refl _⟩
      | done hport hp hc =>
        rw [show b.port = .m from hport] at hm
        exact absurd (resets_of_idle hm hd hp hc) (by simp [hresets])
  · intro hresets
    cases heffect.ringMove with
    | quiet _ _ _ hno => simp [hno] at hresets
    | stored _ _ hm | returned _ _ hm => exact absurd hresets (by simp [resets, hm])
    | reset => exact ⟨rfl, rfl, rfl, rfl⟩

end Sys2Proof.Machine
end

section
/-! FIFO order and conservation: what one step does to the live frames, in flight and returned, and then every run
(20_memory.md R84, R86, R87). -/

namespace Sys2Proof.Machine

/-- A step that puts the frames `acc` behind the live ones, returns the frames `new` from their front, and counts both. -/
structure QueueStep (s s' : State) (acc new : List Frame) : Prop where
  returned : returnedIn s'.resultsC = returnedIn s.resultsC ++ new
  order : live s ++ acc.map some = new.map some ++ live s'
  pushed : pushedTotal s' = pushedTotal s + acc.length
  popped : poppedTotal s' = poppedTotal s + new.length

theorem Quiet.queueStep {s s' : State} (h : Quiet s s') : QueueStep s s' [] [] := by
  obtain ⟨⟨⟨hheads, hhead⟩, htails, htail⟩, hcfg, hslot, hret⟩ := h
  constructor <;> simp [hret, live, pushedTotal, poppedTotal, hheads, hhead, htails, htail, hcfg, hslot]

theorem RingInv.queueStep_pushComplete {s : State} (h : RingInv s) {n : Nat} {fs : List Frame}
    (hbusy : s.portP = .pushBusy n fs) : QueueStep s (pushComplete n fs s) fs [] where
  returned := (List.append_nil _).symm
  order := (h.live_pushComplete hbusy).symm
  pushed := by rw [h.pushedTotal_pushComplete hbusy, h.pushBusy_length hbusy]
  popped := rfl

theorem RingInv.queueStep_popComplete {s : State} (h : RingInv s) {n : Nat} {fs : List Frame} (hbusy : s.portC = .popBusy n)
    (hload : loadAll s.slot (slotRun s.cfg s.tail n) = some fs) : QueueStep s (popComplete n s) [] fs where
  returned := by
    rw [popComplete_of_loadAll hload, returnedIn_append]
    simp [popResult, returnedIn]
  order := by simpa using h.live_popComplete hbusy hload
  pushed := by rw [popComplete_of_loadAll hload]; rfl
  popped := by rw [h.poppedTotal_popComplete hbusy hload, loadAll_length hload, slotRun_length]

/-- A step without RESET accepts what it completes and returns the oldest frames. -/
theorem RingInv.queueStep {s s' : State} (h : RingInv s) (hstep : step s = .next s') (hresets : resets s = false) :
    ∃ new, QueueStep s s' (accepts s) new := by
  obtain ⟨-, heffect⟩ := step_effect hstep
  cases heffect.ringMove with
  | quiet _ hquiet haccepts => exact ⟨[], haccepts ▸ hquiet.queueStep⟩
  | stored n fs hm hbusy =>
    obtain ⟨hret, horder, hpushed, hpopped⟩ := h.keep_takeMove.queueStep_pushComplete hbusy
    rw [accepts_of_stored hm hbusy]
    exact ⟨[], hret, horder, hpushed, hpopped⟩
  | returned n fs hm hbusy hload =>
    obtain ⟨hret, horder, hpushed, hpopped⟩ := h.keep_takeMove.queueStep_popComplete hbusy hload
    rw [accepts_of_completeC hm]
    exact ⟨fs, hret, horder, hpushed, hpopped⟩
  | reset _ hyes => simp [hyes] at hresets

/-- Settles O47: a `QueueStep` counts what it accepts and returns; after a RESET each history is one entry. -/
theorem totalsCountTransfers : Obligations.TotalsCountTransfers := by
  intro s s' hinv hstep
  constructor
  · intro hresets
    obtain ⟨-, -, hheads, htails⟩ := (viewsNeverGoBack s s' hinv hstep).2 hresets
    simp [pushedTotal, poppedTotal, hheads, htails, travelled]
  · intro hresets
    obtain ⟨new, hret, -, hpushed, hpopped⟩ := hinv.queueStep hstep hresets
    exact ⟨hpushed, new, hret, hpopped⟩

theorem noResetOver_succ {k : Nat} {s s1 : State} (hstep : step s = .next s1) :
    noResetOver (k + 1) s = true ↔ resets s = false ∧ noResetOver k s1 = true := by
  simp [noResetOver, hstep]

/-- Settles O51: the queue of one step after the other, by induction on the number of steps. -/
theorem ringIsFifo : Obligations.RingIsFifo := by
  intro k
  induction k with
  | zero =>
    rintro s s' - hrun -
    cases hrun
    exact ⟨[], by simp [acceptedOver]⟩
  | succ k ih =>
    intro s s' hinv hrun hno
    obtain ⟨s1, hstep, hrest⟩ := runSteps_succ_eq_next.1 hrun
    obtain ⟨hresets, hno⟩ := (noResetOver_succ hstep).1 hno
    obtain ⟨new, hret, horder, -, -⟩ := hinv.queueStep hstep hresets
    obtain ⟨later, hretLater, horderLater⟩ := ih s1 s' (stepKeepsInvariant s s1 hinv hstep) hrest hno
    refine ⟨new ++ later, by rw [hretLater, hret, List.append_assoc], ?_⟩
    calc live s ++ (acceptedOver (k + 1) s).map some
        = (live s ++ (accepts s).map some) ++ (acceptedOver k s1).map some := by simp [acceptedOver, hstep]
      _ = new.map some ++ (live s1 ++ (acceptedOver k s1).map some) := by rw [horder, List.append_assoc]
      _ = (new ++ later).map some ++ live s' := by rw [horderLater, List.map_append, List.append_assoc]

end Sys2Proof.Machine
end

section
/-! Conservation (20_memory.md R87): the frames a PUSH offers are dropped at issue or go into flight, and those in flight are
accepted when it completes. With the queue of R86 that accounts for every frame. -/

namespace Sys2Proof.Machine

section
variable {s s' : State}

theorem offers_of_completion (hm : nextMove s = some .completeP ∨ nextMove s = some .completeC ∨ nextMove s = none) :
    offers s = 0 := by
  rcases hm with hm | hm | hm <;> simp [offers, hm]

theorem offers_of_not_push {b : Bus} (hm : nextMove s = some (.present b.port b.word b.src b.draw))
    (hd : ∀ count, decode b.word ≠ .ok (.push count)) : offers s = 0 := by
  obtain ⟨port, word, src, draw⟩ := b
  cases port with
  | c | m => simp [offers, hm]
  | p => simp [offers, hm] -- `hd` excludes the arm of a PUSH

/-- A PUSH presented offers its count if it passes its checks (R122, R174), and else nothing. -/
theorem offers_of_push {b : Bus} {count : Nat} (hm : nextMove s = some (.present b.port b.word b.src b.draw))
    (hd : decode b.word = .ok (.push count)) :
    offers s = if (presented s b).bus.port = .p ∧ (presented s b).portP = .idle ∧ (presented s b).bus.src.length = count
      then count else 0 := by
  obtain ⟨port, word, src, draw⟩ := b
  cases port with
  | c | m => simp [offers, hm, presented]
  | p =>
    by_cases hidle : s.portP = .idle <;> by_cases hlen : src.length = count <;>
      simp [offers, hm, hd, pushIssueCheck, presented, hidle, hlen]

theorem drops_of_step (hstep : step s = .next s') : drops s = offers s - (inFlight s' - inFlight s) := by
  simp [drops, hstep]

theorem inFlight_of_idle (hidle : s.portP = .idle) : inFlight s = 0 := by simp [inFlight, hidle]

theorem inFlight_of_busy {n : Nat} {fs : List Frame} (hbusy : s.portP = .pushBusy n fs) : inFlight s = n := by
  simp [inFlight, hbusy]

/-- What the frames of the next step turn into: dropped, accepted or in flight. -/
def FlightStep (s s' : State) : Prop := inFlight s + offers s = drops s + (accepts s).length + inFlight s'

/-- A step that is given no frames only accepts what was in flight. -/
theorem flightStep_of_offers_eq_zero (hstep : step s = .next s') (hoffers : offers s = 0)
    (hflight : inFlight s = (accepts s).length + inFlight s') : FlightStep s s' := by
  rw [FlightStep, drops_of_step hstep, hoffers, hflight]
  omega

/-- R123: a PUSH that passes its checks puts at most its count into flight, and one that does not changes nothing in flight. -/
theorem PushEffect.inFlight_cases {count : Nat} (he : PushEffect count s s') :
    (s.bus.port = .p ∧ s.portP = .idle ∧ s.bus.src.length = count) ∧ inFlight s = 0 ∧ inFlight s' ≤ count ∨
      ¬(s.bus.port = .p ∧ s.portP = .idle ∧ s.bus.src.length = count) ∧ inFlight s' = inFlight s := by
  cases he with
  | rejected _ _ hbad => exact .inr ⟨hbad, rfl⟩
  | nothing hport hidle hlen | dropped _ _ hport hidle hlen =>
    exact .inl ⟨⟨hport, hidle, hlen⟩, inFlight_of_idle hidle, (inFlight_of_idle (by exact hidle)).trans_le (Nat.zero_le _)⟩
  | taken j t n hport hidle hlen _ _ hn => exact .inl ⟨⟨hport, hidle, hlen⟩, inFlight_of_idle hidle, hn ▸ Nat.min_le_left count _⟩

/-- R126: what a PUSH drops is what it is given and does not put into flight. -/
theorem flightStep_of_push {b : Bus} {count : Nat} (hstep : step s = .next s')
    (hm : nextMove s = some (.present b.port b.word b.src b.draw)) (hd : decode b.word = .ok (.push count))
    (he : PushEffect count (presented s b) s') : FlightStep s s' := by
  have hoffers := offers_of_push hm hd
  rw [FlightStep, drops_of_step hstep, accepts_of_present hm, List.length_nil, Nat.add_zero]
  rcases he.inFlight_cases with ⟨hok, hnone, hle⟩ | ⟨hbad, hsame⟩
  · replace hnone : inFlight s = 0 := hnone
    rw [if_pos hok] at hoffers
    omega
  · replace hsame : inFlight s' = inFlight s := hsame
    rw [if_neg hbad] at hoffers
    omega

theorem RingInv.flightStep (h : RingInv s) (hstep : step s = .next s') : FlightStep s s' := by
  obtain ⟨-, heffect⟩ := step_effect hstep
  cases heffect with
  | idle hm => exact flightStep_of_offers_eq_zero hstep (offers_of_completion (.inr (.inr hm))) (by simp [accepts, hm])
  | skipP hm hidle =>
    exact flightStep_of_offers_eq_zero hstep (offers_of_completion (.inl hm)) (by simp [accepts_of_idle hidle, inFlight])
  | skipC hm =>
    exact flightStep_of_offers_eq_zero hstep (offers_of_completion (.inr (.inl hm))) (by simp [accepts_of_completeC hm, inFlight])
  | stored n fs hm hbusy =>
    refine flightStep_of_offers_eq_zero hstep (offers_of_completion (.inl hm)) ?_
    rw [accepts_of_stored hm hbusy, h.pushBusy_length hbusy, inFlight_of_busy hbusy]
    rfl
  | returned n hm hbusy =>
    refine flightStep_of_offers_eq_zero hstep (offers_of_completion (.inr (.inl hm))) ?_
    rcases popComplete_cases n (takeMove s) with hpop | ⟨fs, -, hpop⟩ <;>
      simp [hpop, accepts_of_completeC hm, inFlight]
  | illegal b e hm hd =>
    refine flightStep_of_offers_eq_zero hstep (offers_of_not_push hm (by simp [hd])) ?_
    simp [accepts_of_present hm, inFlight, presented]
  | push b count _ hm hd he => exact flightStep_of_push hstep hm hd he
  | pop b most _ hm hd he =>
    refine flightStep_of_offers_eq_zero hstep (offers_of_not_push hm (by simp [hd])) ?_
    rw [he.frame, accepts_of_present hm]
    simp [inFlight, presented]
  | reset b _ hm hd he =>
    refine flightStep_of_offers_eq_zero hstep (offers_of_not_push hm (by simp [hd])) ?_
    rw [accepts_of_present hm]
    cases he with
    | rejected | done => simp [inFlight, presented, resetRing]

/-- Over a run, frames in flight or offered are dropped, accepted or in flight at the end. -/
theorem RingInv.flightOver {k : Nat} (h : RingInv s) (hrun : runSteps k s = .next s') :
    inFlight s + offeredOver k s = droppedOver k s + (acceptedOver k s).length + inFlight s' := by
  induction k generalizing s with
  | zero => cases hrun; simp [offeredOver, droppedOver, acceptedOver]
  | succ k ih =>
    obtain ⟨s1, hstep, hrest⟩ := runSteps_succ_eq_next.1 hrun
    have hfirst : FlightStep s s1 := h.flightStep hstep
    have hlater := ih (stepKeepsInvariant s s1 h hstep) hrest
    simp only [FlightStep, offeredOver, droppedOver, acceptedOver, hstep, List.length_append] at hfirst hlater ⊢
    omega

end

/-- Settles O52: the lengths of R86's lists, with the account of the frames in flight. -/
theorem framesAreConserved : Obligations.FramesAreConserved := by
  intro k s s' hinv hrun hno
  obtain ⟨new, hret, horder⟩ := ringIsFifo k s s' hinv hrun hno
  refine ⟨new, hret, ?_⟩
  have hcount := congrArg List.length horder
  have hflight := hinv.flightOver hrun
  simp only [List.length_append, List.length_map] at hcount
  omega

end Sys2Proof.Machine
end

section
/-! Snapshots: which entries a draw can pick, and what is computed from them (20_memory.md R72, R73, R88). -/

namespace Sys2Proof.Machine

/-- Every entry from the view on is the answer for some draw; without stale views the last one is, for every draw. -/
theorem exists_draw {stale : Bool} {seen j v : Nat} {hist : List Nat} (hv : hist[j]? = some v)
    (hwindow : if stale = true then seen ≤ j else j = hist.length - 1) : ∃ d, snapshot stale d seen hist = some (j, v) := by
  refine ⟨j - seen, snapshot_eq_some.2 ⟨hv, ?_⟩⟩
  cases stale with
  | false => exact hwindow
  | true =>
    replace hwindow : seen ≤ j := hwindow
    obtain ⟨hlt, -⟩ := List.getElem?_eq_some_iff.1 hv
    rw [if_pos rfl, Nat.mod_eq_of_lt (by omega), Nat.add_sub_cancel' hwindow]

/-- Settles O16: the draw `j - pSeen` picks entry `j`, and `viewTail_eq_some` says that every answer is in the window. -/
theorem producerSnapshotDraws : Obligations.ProducerSnapshotDraws := by
  constructor
  · rintro s j t - ⟨hv, hwindow⟩
    obtain ⟨d, hd⟩ := exists_draw hv hwindow
    exact ⟨d, by simp [viewTail, hd]⟩
  · intro s hview
    obtain ⟨t, s1, hv⟩ := exists_viewTail hview
    obtain ⟨j, hsee, rfl⟩ := viewTail_eq_some hv
    exact ⟨j, t, hsee, hv⟩

/-- Settles O17: the draw `j - cSeen` picks entry `j`, and `viewHead_eq_some` says that every answer is in the window. -/
theorem consumerSnapshotDraws : Obligations.ConsumerSnapshotDraws := by
  constructor
  · rintro s j h - ⟨hv, hwindow⟩
    obtain ⟨d, hd⟩ := exists_draw hv hwindow
    exact ⟨d, by simp [viewHead, hd]⟩
  · intro s hview
    obtain ⟨h, s1, hv⟩ := exists_viewHead hview
    obtain ⟨j, hsee, rfl⟩ := viewHead_eq_some hv
    exact ⟨j, h, hsee, hv⟩

/-- R72, R73: where the window is empty the draw has no value. -/
theorem snapshot_eq_none {stale : Bool} {d seen : Nat} {hist : List Nat}
    (hempty : stale = true ∧ hist.length ≤ seen ∨ stale = false ∧ hist = []) : snapshot stale d seen hist = none := by
  rcases hempty with ⟨rfl, hle⟩ | ⟨rfl, rfl⟩
  · simp [snapshot, hle.trans (Nat.le_add_right seen _)]
  · simp [snapshot]

/-- What a PUSH that passes its checks goes on to do (R121, R123). -/
theorem exec_push_eq {s : State} {count : Nat} (henabled : StepsEnabled s) (hport : s.bus.port = .p) (hidle : s.portP = .idle)
    (hlen : s.bus.src.length = count) :
    exec (.push count) s = if count = 0 then .next (respond .p .ack s) else pushIssue count s := by
  have hcheck : pushIssueCheck count s = none := by simp [pushIssueCheck, hidle, hlen]
  rw [exec, execPush, whenRunning_of_enabled henabled, onPort, if_pos (show s.bus.port = portOf (.push count) from hport), hcheck]

/-- What a POP that passes its checks goes on to do (R141, R143). -/
theorem exec_pop_eq {s : State} {most : Nat} (henabled : StepsEnabled s) (hport : s.bus.port = .c) (hidle : s.portC = .idle) :
    exec (.pop most) s = if most = 0 then .next (respond .c (popResult 0 []) s) else popIssue most s := by
  have hcheck : popIssueCheck s = none := by simp [popIssueCheck, hidle]
  rw [exec, execPop, whenRunning_of_enabled henabled, onPort, if_pos (show s.bus.port = portOf (.pop most) from hport), hcheck]

/-- Settles O18: the checks pass, so the command takes its snapshot, which has no value. -/
theorem viewBeyondHistoryStops : Obligations.ViewBeyondHistoryStops := by
  intro s n henabled hpos
  have hn : n ≠ 0 := Nat.one_le_iff_ne_zero.1 hpos
  constructor
  · intro hport hidle hlen hempty
    have hview : viewTail s = none := by rw [viewTail, snapshot_eq_none hempty, Option.map_none]
    rw [exec_push_eq henabled hport hidle hlen, if_neg hn, pushIssue, hview]
  · intro hport hidle hempty
    have hview : viewHead s = none := by rw [viewHead, snapshot_eq_none hempty, Option.map_none]
    rw [exec_pop_eq henabled hport hidle, if_neg hn, popIssue, hview]

section
variable {s : State}

/-- R88: from any entry the producer may see it counts at least the slots in use, so at most the free ones as free. -/
theorem RingInv.used_le_producerView (h : RingInv s) {j t : Nat} (hsee : ProducerMaySee s j t) :
    used s.cfg s.head s.tail ≤ used s.cfg s.head t := by
  obtain ⟨hlt, -⟩ := List.getElem?_eq_some_iff.1 hsee.1
  rw [h.used_eq, h.used_tailEntry (h.pSeen_le hsee) hsee.1]
  exact Nat.sub_le_sub_left (travelled_mono _ _ (Nat.le_sub_one_of_lt hlt)) _

/-- R88: from any entry the consumer may see it computes at most the number of live frames. -/
theorem RingInv.consumerView_le_used (h : RingInv s) {j v : Nat} (hsee : ConsumerMaySee s j v) :
    used s.cfg v s.tail ≤ used s.cfg s.head s.tail := by
  obtain ⟨hlt, -⟩ := List.getElem?_eq_some_iff.1 hsee.1
  rw [h.used_eq, h.used_headEntry (h.cSeen_le hsee) hsee.1]
  exact Nat.sub_le_sub_right (travelled_mono _ _ (Nat.le_sub_one_of_lt hlt)) _

/-- R12: without stale views the producer sees `tail` itself. -/
theorem RingInv.eq_tail (h : RingInv s) (hfresh : s.cfg.staleViews = false) {j t : Nat} (hsee : ProducerMaySee s j t) :
    t = s.tail := by
  obtain ⟨hv, hlast⟩ := hsee
  rw [if_neg (by simp [hfresh])] at hlast
  rw [hlast, h.tails.getElem?_last] at hv
  exact (Option.some.inj hv).symm

/-- R12: without stale views the consumer sees `head` itself. -/
theorem RingInv.eq_head (h : RingInv s) (hfresh : s.cfg.staleViews = false) {j v : Nat} (hsee : ConsumerMaySee s j v) :
    v = s.head := by
  obtain ⟨hv, hlast⟩ := hsee
  rw [if_neg (by simp [hfresh])] at hlast
  rw [hlast, h.heads.getElem?_last] at hv
  exact (Option.some.inj hv).symm

end

/-- Settles O20: an older `tail` leaves less room and an older `head` fewer frames, and the last entries are the registers. -/
theorem snapshotsAreConservative : Obligations.SnapshotsAreConservative := by
  intro s s1 hinv
  constructor
  · intro t hv
    obtain ⟨j, hsee, -⟩ := viewTail_eq_some hv
    exact ⟨Nat.sub_le_sub_left (hinv.used_le_producerView hsee) _, fun hfresh => by rw [hinv.eq_tail hfresh hsee]⟩
  · intro v hv
    obtain ⟨j, hsee, -⟩ := viewHead_eq_some hv
    exact ⟨hinv.consumerView_le_used hsee, fun hfresh => by rw [hinv.eq_head hfresh hsee, available]⟩

end Sys2Proof.Machine
end

section
/-! The block never looks inside a frame (20_memory.md R86, 92_eei_decisions.md D23): replacing every frame by its image under `g`
commutes with each operation, from the storage up to the step. -/

namespace Sys2Proof.Machine

section
variable (g : Frame → Frame)

/-- The storage with every frame replaced, as `State.mapFrames` does it. -/
def mapSlots (m : Memory) : Memory := m.map fun e => (e.1, g e.2)

@[simp] theorem memRead_mapSlots (m : Memory) (a : Nat) : memRead (mapSlots g m) a = (memRead m a).map g := by
  induction m with
  | nil => rfl
  | cons e m ih =>
    obtain ⟨b, f⟩ := e
    change memRead ((b, g f) :: mapSlots g m) a = _
    rw [memRead_cons, memRead_cons, ih]
    split <;> rfl

/-- A write places its frame by the slot indices alone. -/
theorem memWrite_mapSlots (m : Memory) (a : Nat) (f : Frame) : memWrite (mapSlots g m) a (g f) = mapSlots g (memWrite m a f) := by
  induction m with
  | nil => rfl
  | cons e m ih =>
    obtain ⟨b, f'⟩ := e
    change memWrite ((b, g f') :: mapSlots g m) a (g f) = _
    simp only [memWrite, ih]
    split
    · rfl
    · split <;> rfl

theorem storeAll_mapSlots (ss : List Nat) (fs : List Frame) (m : Memory) :
    storeAll (mapSlots g m) ss (fs.map g) = mapSlots g (storeAll m ss fs) := by
  induction ss generalizing m fs with
  | nil => simp only [storeAll]
  | cons a ss ih =>
    cases fs with
    | nil => rfl
    | cons f fs => rw [List.map_cons, storeAll, storeAll, memWrite_mapSlots, ih]

theorem loadAll_mapSlots (ss : List Nat) (m : Memory) : loadAll (mapSlots g m) ss = (loadAll m ss).map (List.map g) := by
  induction ss with
  | nil => rfl
  | cons a ss ih =>
    simp only [loadAll, ih, memRead_mapSlots]
    cases memRead m a <;> cases loadAll m ss <;> rfl

end

section
variable (g : Frame → Frame) (s : State)

@[simp] theorem mapFrames_slot : (s.mapFrames g).slot = mapSlots g s.slot := rfl
@[simp] theorem mapFrames_head : (s.mapFrames g).head = s.head := rfl
@[simp] theorem mapFrames_tail : (s.mapFrames g).tail = s.tail := rfl
@[simp] theorem mapFrames_portP : (s.mapFrames g).portP = s.portP.mapFrames g := rfl
@[simp] theorem mapFrames_portC : (s.mapFrames g).portC = s.portC := rfl
@[simp] theorem mapFrames_headHist : (s.mapFrames g).headHist = s.headHist := rfl
@[simp] theorem mapFrames_tailHist : (s.mapFrames g).tailHist = s.tailHist := rfl
@[simp] theorem mapFrames_pSeen : (s.mapFrames g).pSeen = s.pSeen := rfl
@[simp] theorem mapFrames_cSeen : (s.mapFrames g).cSeen = s.cSeen := rfl
@[simp] theorem mapFrames_fault : (s.mapFrames g).fault = s.fault := rfl
@[simp] theorem mapFrames_cfg : (s.mapFrames g).cfg = s.cfg := rfl
@[simp] theorem mapFrames_schedule : (s.mapFrames g).schedule = s.schedule.map (Move.mapFrames g) := rfl
@[simp] theorem mapFrames_bus : (s.mapFrames g).bus = { s.bus with src := s.bus.src.map g } := rfl

/-- Whether port P is busy does not depend on the frames in flight. -/
@[simp] theorem mapFrames_portP_eq_idle (p : PhaseP) : p.mapFrames g = .idle ↔ p = .idle := by
  cases p <;> simp [PhaseP.mapFrames]

/-! The operations. -/

theorem nextMove_mapFrames : nextMove (s.mapFrames g) = (nextMove s).map (Move.mapFrames g) := by
  cases hs : s.schedule with
  | cons m rest => simp [nextMove, hs]
  | nil =>
    by_cases hp : s.portP = .idle <;> by_cases hc : s.portC = .idle <;> simp [nextMove, hs, hp, hc, Move.mapFrames]

theorem takeMove_mapFrames : takeMove (s.mapFrames g) = (takeMove s).mapFrames g := by
  simp [takeMove, State.mapFrames, List.map_tail]

theorem raiseFault_mapFrames (code : FaultCode) : raiseFault code (s.mapFrames g) = (raiseFault code s).mapFrames g := by
  by_cases hf : s.fault = .noFault
  · rw [raiseFault_eq _ _ hf, raiseFault_eq _ (s.mapFrames g) hf]
    rfl
  · simp [raiseFault, hf]

theorem respond_mapFrames (port : Port) (r : Result) :
    respond port (r.mapFrames g) (s.mapFrames g) = (respond port r s).mapFrames g := by
  cases port <;> simp [respond, State.mapFrames]

theorem respond_ack_mapFrames (port : Port) : respond port .ack (s.mapFrames g) = (respond port .ack s).mapFrames g :=
  respond_mapFrames g s port .ack

theorem respond_popResult_mapFrames (n : Nat) (fs : List Frame) :
    respond .c (popResult n (fs.map g)) (s.mapFrames g) = (respond .c (popResult n fs) s).mapFrames g :=
  respond_mapFrames g s .c (popResult n fs)

theorem whenRunning_mapFrames (out : Out) :
    whenRunning (s.mapFrames g) (mapOutcome g out) = mapOutcome g (whenRunning s out) := by
  by_cases hw : s.cfg.wf = false <;> by_cases hf : s.fault = .noFault <;> simp [whenRunning, hw, hf, mapOutcome]

theorem onPort_mapFrames (port : Port) (out : Out) :
    onPort port (s.mapFrames g) (mapOutcome g out) = mapOutcome g (onPort port s out) := by
  simp only [onPort, mapFrames_bus, raiseFault_mapFrames]
  split_ifs <;> rfl

/-- A snapshot reads histories only. -/
theorem viewTail_mapFrames : viewTail (s.mapFrames g) = (viewTail s).map fun p => (p.1, p.2.mapFrames g) := by
  simp only [viewTail, Option.map_map]
  rfl

theorem viewHead_mapFrames : viewHead (s.mapFrames g) = (viewHead s).map fun p => (p.1, p.2.mapFrames g) := by
  simp only [viewHead, Option.map_map]
  rfl

/-! The commands. -/

theorem pushIssue_mapFrames (count : Nat) : pushIssue count (s.mapFrames g) = mapOutcome g (pushIssue count s) := by
  simp only [pushIssue, viewTail_mapFrames]
  cases viewTail s with
  | none => rfl
  | some p =>
    obtain ⟨t, s1⟩ := p
    have hkept : kept (s.mapFrames g) count t = kept s count t := rfl
    simp only [Option.map_some, hkept, respond_ack_mapFrames, mapFrames_bus, ← List.map_take]
    split_ifs <;> rfl

theorem popIssue_mapFrames (most : Nat) : popIssue most (s.mapFrames g) = mapOutcome g (popIssue most s) := by
  simp only [popIssue, viewHead_mapFrames]
  cases viewHead s with
  | none => rfl
  | some p =>
    obtain ⟨h, s1⟩ := p
    have htaken : taken (s.mapFrames g) most h = taken s most h := rfl
    have hnone := respond_popResult_mapFrames g s1 0 []
    simp only [List.map_nil] at hnone
    simp only [Option.map_some, htaken, hnone]
    split_ifs <;> rfl

theorem resetRing_mapFrames : resetRing (s.mapFrames g) = (resetRing s).mapFrames g := by
  simp only [resetRing, ← respond_ack_mapFrames]
  rfl

theorem exec_mapFrames (i : Instr) : exec i (s.mapFrames g) = mapOutcome g (exec i s) := by
  cases i with
  | push count =>
    have hcheck : pushIssueCheck count (s.mapFrames g) = pushIssueCheck count s := by simp [pushIssueCheck]
    simp only [exec, execPush, ← whenRunning_mapFrames, ← onPort_mapFrames, hcheck]
    congr 2
    cases pushIssueCheck count s with
    | some code => exact congrArg _ (raiseFault_mapFrames g s code)
    | none =>
      simp only [pushIssue_mapFrames, respond_ack_mapFrames]
      split_ifs <;> rfl
  | pop most =>
    have hcheck : popIssueCheck (s.mapFrames g) = popIssueCheck s := rfl
    have hnone := respond_popResult_mapFrames g s 0 []
    simp only [List.map_nil] at hnone
    simp only [exec, execPop, ← whenRunning_mapFrames, ← onPort_mapFrames, hcheck]
    congr 2
    cases popIssueCheck s with
    | some code => exact congrArg _ (raiseFault_mapFrames g s code)
    | none =>
      simp only [popIssue_mapFrames, hnone]
      split_ifs <;> rfl
  | reset =>
    have hcheck : resetCheck (s.mapFrames g) = resetCheck s := by simp [resetCheck]
    simp only [exec, execReset, ← whenRunning_mapFrames, ← onPort_mapFrames, hcheck]
    congr 2
    cases resetCheck s with
    | some code => exact congrArg _ (raiseFault_mapFrames g s code)
    | none => exact congrArg _ (resetRing_mapFrames g s)

/-! The completions. -/

theorem pushComplete_mapFrames (n : Nat) (fs : List Frame) :
    pushComplete n (fs.map g) (s.mapFrames g) = (pushComplete n fs s).mapFrames g := by
  simp only [pushComplete, mapFrames_slot, mapFrames_cfg, mapFrames_head, storeAll_mapSlots, ← respond_ack_mapFrames]
  rfl

theorem popComplete_mapFrames (n : Nat) : popComplete n (s.mapFrames g) = (popComplete n s).mapFrames g := by
  simp only [popComplete, mapFrames_slot, mapFrames_cfg, mapFrames_tail, loadAll_mapSlots]
  cases loadAll s.slot (slotRun s.cfg s.tail n) with
  | none => exact raiseFault_mapFrames g s .unwrittenSlot
  | some fs =>
    simp only [Option.map_some, ← respond_popResult_mapFrames]
    rfl

theorem completeP_mapFrames : completeP (s.mapFrames g) = mapOutcome g (completeP s) := by
  simp only [completeP, ← whenRunning_mapFrames, mapFrames_portP]
  cases s.portP with
  | idle => rfl
  | pushBusy n fs => exact congrArg _ (congrArg _ (pushComplete_mapFrames g s n fs))

theorem completeC_mapFrames : completeC (s.mapFrames g) = mapOutcome g (completeC s) := by
  simp only [completeC, ← whenRunning_mapFrames, mapFrames_portC]
  cases s.portC with
  | idle => rfl
  | popBusy n => exact congrArg _ (congrArg _ (popComplete_mapFrames g s n))

theorem present_mapFrames (word : Word) : present word (s.mapFrames g) = mapOutcome g (present word s) := by
  unfold present
  cases decode word with
  | error e =>
    simp only [raiseFault_mapFrames]
    exact whenRunning_mapFrames g s (.next (raiseFault .illegalCommand s))
  | ok i => exact exec_mapFrames g s i

theorem makeMove_mapFrames (m : Move) : makeMove (m.mapFrames g) (s.mapFrames g) = mapOutcome g (makeMove m s) := by
  cases m with
  | present port word src draw => exact present_mapFrames g (drive port word src draw s) word
  | completeP => exact completeP_mapFrames g s
  | completeC => exact completeC_mapFrames g s

end

/-- Settles O53: the moves with their frames replaced do what the moves do. -/
theorem stepIgnoresFrameBits : Obligations.StepIgnoresFrameBits := by
  intro g s
  rw [step, step, nextMove_mapFrames]
  cases nextMove s with
  | none => exact whenRunning_mapFrames g s (.next s)
  | some m =>
    simp only [Option.map_some, takeMove_mapFrames]
    exact makeMove_mapFrames g (takeMove s) m

end Sys2Proof.Machine
end

section
/-! Frames as bytes (20_memory.md R65): consecutive bytes of a frame, the first least significant, are the number the frame has
there. -/

namespace Sys2Proof.Machine

theorem frameByte_toNat (f : Frame) (j : Nat) : (frameByte f j).toNat = f.toNat / 2 ^ (8 * j) % 2 ^ 8 := by
  rw [frameByte, BitVec.extractLsb'_toNat, Nat.shiftRight_eq_div_pow]

/-- The number of `n` bytes of a frame from byte `a` on. -/
theorem leNumber_frameBytes (f : Frame) (a n : Nat) :
    leNumber ((List.range' a n).map (frameByte f)) = f.toNat / 2 ^ (8 * a) % 2 ^ (8 * n) := by
  induction n generalizing a with
  | zero => simp [leNumber, Nat.mod_one]
  | succ n ih =>
    rw [List.range'_succ, List.map_cons, leNumber, frameByte_toNat, ih, Nat.mul_succ 8 a, Nat.pow_add, ← Nat.div_div_eq_div_mul,
      ← Nat.mod_mul, ← Nat.pow_add, Nat.mul_succ, Nat.add_comm 8]

theorem leftSample_toNat (f : Frame) : (leftSample f).toNat = f.toNat % 2 ^ 32 := by
  rw [leftSample, BitVec.extractLsb'_toNat, Nat.shiftRight_zero]

theorem rightSample_toNat (f : Frame) : (rightSample f).toNat = f.toNat / 2 ^ 32 % 2 ^ 32 := by
  rw [rightSample, BitVec.extractLsb'_toNat, Nat.shiftRight_eq_div_pow]

theorem frameOf_toNat (l r : Sample) : (frameOf l r).toNat = r.toNat * 2 ^ 32 + l.toNat := by
  rw [frameOf, BitVec.toNat_append, ← Nat.shiftLeft_add_eq_or_of_lt l.isLt, Nat.shiftLeft_eq]

/-- Settles O41: bytes 0 to 3, bytes 4 to 7 and all 8 are cases of `leNumber_frameBytes`. -/
theorem frameBytesAreLittleEndian : Obligations.FrameBytesAreLittleEndian := by
  refine ⟨fun f j _ => frameByte_toNat f j, fun f => ⟨?_, ?_⟩, fun f => ?_, fun l r => ⟨?_, ?_⟩⟩
  · rw [leftSample_toNat]
    exact (leNumber_frameBytes f 0 4).trans (by simp)
  · rw [rightSample_toNat]
    exact leNumber_frameBytes f 4 4
  · have hbytes : leNumber (frameBytes f) = f.toNat := by
      refine (leNumber_frameBytes f 0 8).trans ?_
      rw [Nat.mul_zero, Nat.pow_zero, Nat.div_one]
      exact Nat.mod_eq_of_lt f.isLt
    rw [frameOfBytes, hbytes, BitVec.ofNat_toNat, BitVec.setWidth_eq]
  · apply BitVec.eq_of_toNat_eq
    rw [leftSample_toNat, frameOf_toNat]
    omega
  · apply BitVec.eq_of_toNat_eq
    rw [rightSample_toNat, frameOf_toNat]
    omega

end Sys2Proof.Machine
end

section
/-! The slots of a transfer and the order in which they are written (20_memory.md R62, R63, R89). -/

namespace Sys2Proof.Machine

/-- A transfer that does not pass the last slot is one run. -/
theorem slotRun_eq_range' {c : Config} {b n : Nat} (h : b + n ≤ c.capacity) : slotRun c b n = List.range' b n := by
  rw [List.range'_eq_map_range]
  refine List.map_congr_left fun i hi => ?_
  rw [wrap_eq_mod, Nat.mod_eq_of_lt (by have := List.mem_range.1 hi; omega)]

/-- Settles O42: a transfer that passes the last slot is one run to it and one from slot 0. -/
theorem transferIsAtMostTwoRuns : Obligations.TransferIsAtMostTwoRuns := by
  intro c b n hb _ hn
  split
  case isFalse hone =>
    rw [Nat.min_eq_left (by omega), Nat.add_sub_cancel_left, List.append_nil, slotRun_eq_range' (by omega)]
  case isTrue htwo =>
    have hsplit : n = (c.capacity - b) + (b + n - c.capacity) := by omega
    have hend : b + (c.capacity - b) = c.capacity := by omega
    rw [Nat.min_eq_right htwo.le]
    conv_lhs => rw [hsplit]
    rw [slotRun_add, slotRun_eq_range' hend.le, hend, ← slotRun_mod, Nat.mod_self, slotRun_eq_range' (by omega)]

/-- Writes to different slots commute, also in the listing. -/
theorem memWrite_comm {a b : Nat} (hne : a ≠ b) (m : Memory) (f f' : Frame) :
    memWrite (memWrite m a f) b f' = memWrite (memWrite m b f') a f := by
  induction m with
  | nil => grind [memWrite]
  | cons e m ih =>
    obtain ⟨c, f''⟩ := e
    grind [memWrite]

/-- A transfer as a list of (slot, frame) writes. -/
theorem storeAll_eq_foldl (ps : List (Nat × Frame)) (m : Memory) :
    storeAll m (ps.map Prod.fst) (ps.map Prod.snd) = ps.foldl (fun m p => memWrite m p.1 p.2) m := by
  induction ps generalizing m with
  | nil => rfl
  | cons p ps ih => exact ih (memWrite m p.1 p.2)

/-- Writes to different slots may be made in any order. -/
theorem storeAll_perm {ps qs : List (Nat × Frame)} (hperm : ps.Perm qs) (hnodup : (qs.map Prod.fst).Nodup) (m : Memory) :
    storeAll m (ps.map Prod.fst) (ps.map Prod.snd) = storeAll m (qs.map Prod.fst) (qs.map Prod.snd) := by
  rw [storeAll_eq_foldl, storeAll_eq_foldl]
  refine hperm.foldl_eq' (fun p hp q hq m => ?_) m
  by_cases hslot : p.1 = q.1
  · rw [List.inj_on_of_nodup_map hnodup (hperm.subset hp) (hperm.subset hq) hslot]
  · exact memWrite_comm hslot m p.2 q.2

/-- Settles O43: the slots of a transfer of less than a lap are distinct. -/
theorem copyOrderIsUnobservable : Obligations.CopyOrderIsUnobservable := by
  intro c m b n fs order _ hn hlen hperm
  have hslots : ((slotRun c b n).zip fs).map Prod.fst = slotRun c b n := List.map_fst_zip (by simp [hlen])
  have hframes : ((slotRun c b n).zip fs).map Prod.snd = fs := List.map_snd_zip (by simp [hlen])
  have hnodup : (((slotRun c b n).zip fs).map Prod.fst).Nodup := by
    rw [hslots]
    exact slotRun_nodup (by omega)
  rw [storeAll_perm hperm hnodup m, hslots, hframes]

end Sys2Proof.Machine
end

section
/-! RESET twice (42_reset.md R161, 20_memory.md R69). -/

namespace Sys2Proof.Machine

/-- What a RESET that passes its checks does. -/
theorem exec_reset_eq {s : State} (henabled : StepsEnabled s) (hport : s.bus.port = .m) (hp : s.portP = .idle)
    (hc : s.portC = .idle) : exec .reset s = .next (resetRing s) := by
  have hcheck : resetCheck s = none := by simp [resetCheck, hp, hc]
  rw [exec, execReset, whenRunning_of_enabled henabled, onPort, if_pos (show s.bus.port = portOf .reset from hport), hcheck]

/-- Settles O36: the ring that RESET leaves is the ring that it sets. -/
theorem resetIsIdempotent : Obligations.ResetIsIdempotent := by
  intro s s1 henabled hport hp hc hexec
  rw [exec_reset_eq henabled hport hp hc] at hexec
  cases hexec
  exact exec_reset_eq (s := resetRing s) henabled hport hp hc

end Sys2Proof.Machine
end

section
/-! A PUSH and then a POP, each run to its end without stale views (20_memory.md R86): what was pushed into an empty ring comes
back. -/

namespace Sys2Proof.Machine

/-- R102, R107: the word of a well-formed command decodes to it. -/
theorem decode_encode {i : Instr} (hwf : i.wf = true) : decode (encode i) = .ok i := by
  cases i with
  | push count =>
    obtain ⟨hop, hcount⟩ := Laws.EncodedFields.push count hwf
    simp [decode, hop, hcount, Laws.EncodedFields.opOf, Laws.EncodedFields.countOf]
  | pop maxCount =>
    obtain ⟨hop, hcount⟩ := Laws.EncodedFields.pop maxCount hwf
    simp [decode, hop, hcount, Laws.EncodedFields.opOf, Laws.EncodedFields.countOf]
  | reset =>
    obtain ⟨hop, hcount⟩ := Laws.EncodedFields.reset hwf
    simp [decode, hop, hcount, Laws.EncodedFields.opOf, Laws.EncodedFields.countOf]

section
variable {s : State} {rest : List Move}

theorem nextMove_of_schedule {m : Move} (hs : s.schedule = m :: rest) : nextMove s = some m := by simp [nextMove, hs]

theorem takeMove_of_schedule {m : Move} (hs : s.schedule = m :: rest) : takeMove s = { s with schedule := rest } := by
  rw [takeMove, hs, List.tail_cons]

/-- A step that takes a call runs its command. -/
theorem step_of_call {i : Instr} {port : Port} {src : List Frame} {draw : Nat} (hwf : i.wf = true)
    (hs : s.schedule = .present port (encode i) src draw :: rest) :
    step s = exec i { s with schedule := rest, bus := ⟨port, encode i, src, draw⟩ } := by
  rw [step, nextMove_of_schedule hs, takeMove_of_schedule hs]
  change present (encode i) { s with schedule := rest, bus := ⟨port, encode i, src, draw⟩ } = _
  rw [present, decode_encode hwf]

theorem step_completeP (henabled : StepsEnabled s) (hs : s.schedule = .completeP :: rest) {n : Nat} {fs : List Frame}
    (hbusy : s.portP = .pushBusy n fs) : step s = .next (pushComplete n fs { s with schedule := rest }) := by
  rw [step, nextMove_of_schedule hs, takeMove_of_schedule hs]
  exact (whenRunning_of_enabled (s := { s with schedule := rest }) henabled _).trans (by rw [hbusy])

/-- Log 3. -/
theorem step_completeP_idle (henabled : StepsEnabled s) (hs : s.schedule = .completeP :: rest) (hidle : s.portP = .idle) :
    step s = .next { s with schedule := rest } := by
  rw [step, nextMove_of_schedule hs, takeMove_of_schedule hs]
  exact (whenRunning_of_enabled (s := { s with schedule := rest }) henabled _).trans (by rw [hidle])

theorem step_completeC (henabled : StepsEnabled s) (hs : s.schedule = .completeC :: rest) {n : Nat}
    (hbusy : s.portC = .popBusy n) : step s = .next (popComplete n { s with schedule := rest }) := by
  rw [step, nextMove_of_schedule hs, takeMove_of_schedule hs]
  exact (whenRunning_of_enabled (s := { s with schedule := rest }) henabled _).trans (by rw [hbusy])

/-- Log 3. -/
theorem step_completeC_idle (henabled : StepsEnabled s) (hs : s.schedule = .completeC :: rest) (hidle : s.portC = .idle) :
    step s = .next { s with schedule := rest } := by
  rw [step, nextMove_of_schedule hs, takeMove_of_schedule hs]
  exact (whenRunning_of_enabled (s := { s with schedule := rest }) henabled _).trans (by rw [hidle])

theorem runSteps_two {s1 s2 : State} (h1 : step s = .next s1) (h2 : step s1 = .next s2) : runSteps 2 s = .next s2 :=
  runSteps_succ_eq_next.2 ⟨s1, h1, runSteps_succ_eq_next.2 ⟨s2, h2, rfl⟩⟩

/-- R123 without stale views: a batch that fits goes into flight whole. -/
theorem RingInv.exec_push_fits (h : RingInv s) (henabled : StepsEnabled s) (hfresh : s.cfg.staleViews = false)
    (hport : s.bus.port = .p) (hidle : s.portP = .idle) (hfits : s.bus.src.length ≤ free s.cfg s.head s.tail) :
    ∃ j, exec (.push s.bus.src.length) s =
      .next (if s.bus.src = [] then { s with pSeen := j, resultsP := s.resultsP ++ [.ack] }
        else { s with pSeen := j, portP := .pushBusy s.bus.src.length s.bus.src }) := by
  rw [exec_push_eq henabled hport hidle rfl]
  by_cases hnil : s.bus.src = []
  · exact ⟨s.pSeen, by rw [if_pos (by simp [hnil]), if_pos hnil]; rfl⟩
  · have hlen : s.bus.src.length ≠ 0 := by simpa using hnil
    obtain ⟨t, s1, hv⟩ := exists_viewTail h.tails.view
    obtain ⟨j, hsee, rfl⟩ := viewTail_eq_some hv
    obtain rfl := h.eq_tail hfresh hsee
    have hkept : kept s s.bus.src.length s.tail = s.bus.src.length := Nat.min_eq_left hfits
    refine ⟨j, ?_⟩
    rw [if_neg hlen, if_neg hnil, pushIssue, hv]
    simp only [hkept, if_neg hlen, List.take_length]

/-- R143 without stale views: a POP with a large enough maximum takes every live frame. -/
theorem RingInv.exec_pop_all (h : RingInv s) (henabled : StepsEnabled s) (hfresh : s.cfg.staleViews = false)
    (hport : s.bus.port = .c) (hidle : s.portC = .idle) {most : Nat} (hmost : used s.cfg s.head s.tail ≤ most) :
    ∃ j, exec (.pop most) s =
      .next (if used s.cfg s.head s.tail = 0 then { s with cSeen := j, resultsC := s.resultsC ++ [popResult 0 []] }
        else { s with cSeen := j, portC := .popBusy (used s.cfg s.head s.tail) }) := by
  rw [exec_pop_eq henabled hport hidle]
  by_cases hz : most = 0
  · exact ⟨s.cSeen, by rw [if_pos hz, if_pos (by omega)]; rfl⟩
  · obtain ⟨v, s1, hv⟩ := exists_viewHead h.heads.view
    obtain ⟨j, hsee, rfl⟩ := viewHead_eq_some hv
    obtain rfl := h.eq_head hfresh hsee
    have htaken : taken s most s.head = used s.cfg s.head s.tail := Nat.min_eq_left hmost
    refine ⟨j, ?_⟩
    rw [if_neg hz, popIssue, hv]
    simp only [htaken]
    split <;> rfl

/-- R83: the live slots can be read. -/
theorem RingInv.exists_loadAll_live (h : RingInv s) :
    ∃ fs, loadAll s.slot (slotRun s.cfg s.tail (used s.cfg s.head s.tail)) = some fs := by
  refine Option.ne_none_iff_exists'.1 fun hnone => ?_
  obtain ⟨a, ha, hread⟩ := loadAll_eq_none.1 hnone
  obtain ⟨i, hi, rfl⟩ := mem_slotRun.1 ha
  exact h.written i hi hread

/-- A PUSH of frames that fit, run to its end, puts them behind the live ones and leaves port C alone. -/
theorem RingInv.push_run (h : RingInv s) (henabled : StepsEnabled s) (hfresh : s.cfg.staleViews = false) (hidle : s.portP = .idle)
    {src : List Frame} {draw : Nat} (hfits : src.length ≤ free s.cfg s.head s.tail) (hcount : src.length < 2 ^ 30)
    (hs : s.schedule = callPush src draw :: .completeP :: rest) :
    ∃ s', runSteps 2 s = .next s' ∧ live s' = live s ++ src.map some ∧ s'.portP = .idle ∧
      s' = { s with
        slot := s'.slot
        head := s'.head
        headHist := s'.headHist
        pSeen := s'.pSeen
        portP := s'.portP
        resultsP := s'.resultsP
        bus := s'.bus
        schedule := rest } := by
  have hstep := step_of_call (i := .push src.length) (decide_eq_true hcount) hs
  obtain ⟨j, hexec⟩ := RingInv.exec_push_fits
    (s := { s with schedule := .completeP :: rest, bus := ⟨.p, encode (.push src.length), src, draw⟩ })
    (h.withRecords ..) henabled hfresh rfl hidle hfits
  replace hstep := hstep.trans hexec
  split at hstep
  case isTrue hnil =>
    refine ⟨_, runSteps_two hstep (step_completeP_idle henabled rfl hidle), ?_, hidle, rfl⟩
    rw [show src = [] from hnil, List.map_nil, List.append_nil]
    rfl
  case isFalse =>
    have hinv := stepKeepsInvariant _ _ h hstep
    exact ⟨_, runSteps_two hstep (step_completeP (by exact henabled) rfl rfl),
      (hinv.withRecords ..).live_pushComplete rfl, rfl, rfl⟩

/-- The completion of a POP of every live frame. -/
theorem RingInv.completeC_all (h : RingInv s) (henabled : StepsEnabled s) (hs : s.schedule = .completeC :: rest)
    (hbusy : s.portC = .popBusy (used s.cfg s.head s.tail)) :
    ∃ s' fs, step s = .next s' ∧ live s = List.map some fs ∧ live s' = [] ∧ s'.portC = .idle ∧
      s' = { s with
        tail := s'.tail
        tailHist := s'.tailHist
        portC := s'.portC
        resultsC := s.resultsC ++ [popResult fs.length fs]
        schedule := rest } := by
  obtain ⟨fs, hload⟩ := h.exists_loadAll_live
  have hlen : fs.length = used s.cfg s.head s.tail := (loadAll_length hload).trans (slotRun_length ..)
  have hlive : live s = fs.map some := loadAll_eq_some.1 hload
  have hpop := popComplete_of_loadAll (s := { s with schedule := rest }) hload
  have horder : live s = _ := (h.withRecords s.fault rest s.bus s.resultsP s.resultsC s.resultsM).live_popComplete hbusy hload
  rw [hpop, hlive] at horder
  have hstep := step_completeC henabled hs hbusy
  rw [hpop, ← hlen] at hstep
  exact ⟨_, fs, hstep, hlive, List.self_eq_append_right.1 (hlen ▸ horder), rfl, rfl⟩

/-- A POP with a large enough maximum, run to its end, returns every live frame and leaves port P alone. -/
theorem RingInv.pop_run (h : RingInv s) (henabled : StepsEnabled s) (hfresh : s.cfg.staleViews = false) (hidle : s.portC = .idle)
    {most draw : Nat} (hall : used s.cfg s.head s.tail ≤ most) (hmost : most < 2 ^ 30)
    (hs : s.schedule = callPop most draw :: .completeC :: rest) :
    ∃ s' fs, runSteps 2 s = .next s' ∧ live s = List.map some fs ∧ live s' = [] ∧ s'.portC = .idle ∧
      s' = { s with
        tail := s'.tail
        tailHist := s'.tailHist
        cSeen := s'.cSeen
        portC := s'.portC
        resultsC := s.resultsC ++ [popResult fs.length fs]
        bus := s'.bus
        schedule := rest } := by
  have hstep := step_of_call (i := .pop most) (decide_eq_true hmost) hs
  obtain ⟨j, hexec⟩ := RingInv.exec_pop_all
    (s := { s with schedule := .completeC :: rest, bus := ⟨.c, encode (.pop most), [], draw⟩ })
    (h.withRecords ..) henabled hfresh rfl hidle hall
  replace hstep := hstep.trans hexec
  split at hstep
  case isTrue hnone =>
    have hempty : live s = [] := List.length_eq_zero_iff.1 ((live_length s).trans hnone)
    exact ⟨_, [], runSteps_two hstep (step_completeC_idle henabled rfl hidle), hempty, hempty, hidle, rfl⟩
  case isFalse =>
    obtain ⟨s', fs, hdone, hlive, hempty, hportC, hframe⟩ :=
      (stepKeepsInvariant _ _ h hstep).completeC_all (rest := rest) henabled rfl rfl
    exact ⟨s', fs, runSteps_two hstep hdone, hlive, hempty, hportC, by rw [hframe]⟩

end

/-- Settles O60: the PUSH makes its frames the live ones, and the POP returns the live frames. -/
theorem pushThenPopIsIdentity : Obligations.PushThenPopIsIdentity := by
  intro s src most d e hinv henabled hfresh hp hc hempty hcap hmost hmax hs
  have hnone := hinv.isEmpty_iff.1 hempty
  have hfits : src.length ≤ free s.cfg s.head s.tail := by rw [free, hnone]; omega
  obtain ⟨s1, hrun1, hlive1, hp1, hframe1⟩ := hinv.push_run henabled hfresh hp hfits (hmost.trans_lt hmax) hs
  have hlive : live s1 = src.map some := by
    rw [hlive1, List.length_eq_zero_iff.1 ((live_length s).trans hnone), List.nil_append]
  have hall : used s1.cfg s1.head s1.tail ≤ most := by rwa [← live_length, hlive, List.length_map]
  have hcfg1 : s1.cfg = s.cfg := by rw [hframe1]
  have hfault1 : s1.fault = .noFault := by rw [hframe1, henabled.2]
  obtain ⟨s', fs, hrun2, hfs, hlive', hc', hframe2⟩ := (hinv.run hrun1).pop_run (rest := []) ⟨hcfg1 ▸ henabled.1, hfault1⟩
    (hcfg1 ▸ hfresh) (by rw [hframe1, hc]) hall hmax (by rw [hframe1])
  obtain rfl : fs = src := List.map_injective_iff.2 (fun _ _ => Option.some.inj) (hfs.symm.trans hlive)
  have hrun := runSteps_add hrun1 hrun2
  refine ⟨s', hrun, ?_, ?_, decide_eq_true ⟨?_, ?_, hc', ?_⟩⟩
  · rw [hframe2, hframe1, popResult]
  · rw [(hinv.run hrun).isEmpty_iff, ← live_length, hlive', List.length_nil]
  · rw [hframe2, hfault1]
  · rw [hframe2, hp1]
  · rw [hframe2]

end Sys2Proof.Machine
end

section
/-! The command words (30_encoding.md R100 to R111): what the decoder answers on each line of R107, what a decoded command says of
its word's fields, and what the masks of R102 select. -/

namespace Sys2Proof.Machine

open Laws.EncodedFields (opOf countOf commandWord_toNat opField_toNat countField_eq opField_commandWord)

section
variable {w : Word} {i : Instr}

/-! ### The lines of R107, one equation each -/

theorem decode_of_op_push (hop : opField w = 0b01#2) : decode w = .ok (.push (countField w)) := by simp [decode, hop]

theorem decode_of_op_pop (hop : opField w = 0b10#2) : decode w = .ok (.pop (countField w)) := by simp [decode, hop]

theorem decode_of_op_reset (hop : opField w = 0b11#2) (hzero : countField w = 0) : decode w = .ok .reset := by
  simp [decode, hop, hzero]

/-- R106: `OP = 11` with another `N` than 0 is illegal. -/
theorem decode_of_op_reset_count (hop : opField w = 0b11#2) (hcount : countField w ≠ 0) :
    decode w = .error (.resetWithCount (countField w)) := by simp [decode, hop, hcount]

/-- R106: `OP = 00` is illegal. -/
theorem decode_of_op_reserved (hop : opField w = 0b00#2) : decode w = .error (.reservedOp (countField w)) := by
  simp [decode, hop]

/-- The operation field as a number. -/
theorem opField_eq_iff {op : BitVec 2} : opField w = op ↔ w.toNat / 2 ^ 30 = op.toNat := by
  rw [← opField_toNat, BitVec.toNat_inj]

/-! ### A word is its two fields, and a decoded command states both -/

theorem countField_lt (w : Word) : countField w < 2 ^ 30 := (w.extractLsb' 0 30).isLt

/-- R100: the two fields are the whole word. -/
theorem commandWord_fields (w : Word) : commandWord (opField w) (countField w) = w := by
  apply BitVec.eq_of_toNat_eq
  rw [commandWord_toNat, opField_toNat, countField_eq]
  omega

theorem wf_iff_countOf_lt : i.wf = true ↔ countOf i < 2 ^ 30 := by
  cases i <;> simp [Instr.wf, countFits, countOf]

theorem encode_eq_commandWord (i : Instr) : encode i = commandWord (opOf i) (countOf i) := by
  cases i <;> rfl

theorem fields_of_decode (hd : decode w = .ok i) : opField w = opOf i ∧ countField w = countOf i := by
  unfold decode at hd
  split_ifs at hd with hpush hpop hreset hzero
  · cases hd
    exact ⟨hpush, rfl⟩
  · cases hd
    exact ⟨hpop, rfl⟩
  · cases hd
    exact ⟨hreset, hzero⟩

/-- The words that decode to a command are the encodings of the well-formed commands (R102, R107). -/
theorem decode_eq_ok_iff : decode w = .ok i ↔ i.wf = true ∧ encode i = w := by
  constructor
  · intro hd
    obtain ⟨hop, hcount⟩ := fields_of_decode hd
    refine ⟨wf_iff_countOf_lt.2 (hcount ▸ countField_lt w), ?_⟩
    rw [encode_eq_commandWord, ← hop, ← hcount, commandWord_fields]
  · rintro ⟨hwf, rfl⟩
    exact decode_encode hwf

/-! ### The masks of R102 -/

/-- The mask of PUSH and POP clears the count and keeps the operation code. -/
theorem and_opMask (w : Word) : w &&& 0xC0000000#32 = commandWord (opField w) 0 := by
  have hmask : 0xC0000000#32 = BitVec.allOnes 2 ++ 0#30 := by decide
  calc w &&& 0xC0000000#32
      = commandWord (opField w) (countField w) &&& (BitVec.allOnes 2 ++ 0#30) := by rw [hmask, commandWord_fields]
    _ = commandWord (opField w) 0 := by
        rw [commandWord, BitVec.and_append, BitVec.and_allOnes, BitVec.and_zero]
        rfl

theorem and_opMask_eq_iff {op : BitVec 2} : w &&& 0xC0000000#32 = commandWord op 0 ↔ opField w = op := by
  rw [and_opMask]
  constructor
  · intro h
    rw [← opField_commandWord (opField w) 0, h, opField_commandWord]
  · rintro rfl
    rfl

theorem exists_decode_push_iff : (∃ n, decode w = .ok (.push n)) ↔ opField w = 0b01#2 :=
  ⟨fun ⟨_, hd⟩ => (fields_of_decode hd).1, fun hop => ⟨_, decode_of_op_push hop⟩⟩

theorem exists_decode_pop_iff : (∃ n, decode w = .ok (.pop n)) ↔ opField w = 0b10#2 :=
  ⟨fun ⟨_, hd⟩ => (fields_of_decode hd).1, fun hop => ⟨_, decode_of_op_pop hop⟩⟩

theorem decode_reset_iff : decode w = .ok .reset ↔ w = 0xC0000000#32 := by
  have hword : encode .reset = 0xC0000000#32 := by decide
  rw [decode_eq_ok_iff, hword, eq_comm (a := w)]
  exact and_iff_right rfl

end

/-! ### The obligations -/

/-- Settles O1: the encoder writes both fields, and the decoder reads them back. -/
theorem decodeEncodeAgree : Obligations.DecodeEncodeAgree := fun _ hwf => decode_encode hwf

/-- Settles O2: the decoded command states both fields, and they are the whole word. -/
theorem encodeDecodeAgree : Obligations.EncodeDecodeAgree := fun _ _ hd => decode_eq_ok_iff.1 hd

/-- Settles O3: each clause is a line of R107 with its fields read as numbers. -/
theorem decodeReadsOpAndCount : Obligations.DecodeReadsOpAndCount := by
  intro w
  rw [← countField_eq]
  refine ⟨?push, ?pop, ?reset, ?resetCount, ?reserved⟩
  case push => exact fun hop => decode_of_op_push (opField_eq_iff.2 hop)
  case pop => exact fun hop => decode_of_op_pop (opField_eq_iff.2 hop)
  case reset => exact fun hop hzero => decode_of_op_reset (opField_eq_iff.2 hop) hzero
  case resetCount => exact fun hop hcount => ⟨_, decode_of_op_reset_count (opField_eq_iff.2 hop) hcount⟩
  case reserved => exact fun hop => ⟨_, decode_of_op_reserved (opField_eq_iff.2 hop)⟩

/-- Settles O4: two masks select an operation code, and the third the whole word of RESET. -/
theorem matchMaskTable : Obligations.MatchMaskTable := by
  refine ⟨fun w => ?push, fun w => ?pop, fun w => ?reset, fun _ => rfl, fun _ => rfl, rfl⟩
  case push => exact (and_opMask_eq_iff (op := 0b01#2)).trans exists_decode_push_iff.symm
  case pop => exact (and_opMask_eq_iff (op := 0b10#2)).trans exists_decode_pop_iff.symm
  case reset =>
    have hkeep : w &&& 0xFFFFFFFF#32 = w := BitVec.and_allOnes
    rw [hkeep, decode_reset_iff]

/-- Settles O5: the decoder is run on each of the seven words. -/
theorem decodeVectors : Obligations.DecodeVectors := by
  unfold Obligations.DecodeVectors
  decide

end Sys2Proof.Machine
end

section
/-! PUSH (40_push.md): its issue step as one equation for the view it draws, its completion step as one equation, and the two run
in a row. -/

namespace Sys2Proof.Machine

section
variable {s : State} {count : Nat}

/-- R123, R124: a PUSH of at least one frame that passes its checks, for the entry that its snapshot answers. -/
theorem exec_push_of_view {j t : Nat} (hv : viewTail s = some (t, { s with pSeen := j })) (henabled : StepsEnabled s)
    (hport : s.bus.port = .p) (hidle : s.portP = .idle) (hlen : s.bus.src.length = count) (hpos : 1 ≤ count) :
    exec (.push count) s =
      .next (if kept s count t = 0 then { s with pSeen := j, resultsP := s.resultsP ++ [.ack] }
        else { s with pSeen := j, portP := .pushBusy (kept s count t) (s.bus.src.take (kept s count t)) }) := by
  rw [exec_push_eq henabled hport hidle hlen, if_neg (Nat.one_le_iff_ne_zero.1 hpos), pushIssue, hv]
  exact (apply_ite Host.Outcome.next _ _ _).symm

/-- R124: with no free space in view nothing is kept. -/
theorem kept_eq_zero {t : Nat} (hfree : free s.cfg s.head t = 0) : kept s count t = 0 := by
  rw [kept, hfree, Nat.min_zero]

/-- R88, R124: a full ring shows no free space, whichever entry the producer sees. -/
theorem RingInv.free_eq_zero_of_isFull (h : RingInv s) (hfull : isFull s = true) {j t : Nat} (hsee : ProducerMaySee s j t) :
    free s.cfg s.head t = 0 := by
  have hused : used s.cfg s.head s.tail = s.cfg.capacity - 1 := beq_iff_eq.1 hfull
  exact Nat.sub_eq_zero_of_le (hused ▸ h.used_le_producerView hsee)

/-- R125: what a PUSH completion writes. -/
theorem pushComplete_eq (n : Nat) (fs : List Frame) (s : State) :
    pushComplete n fs s =
      { s with
        slot := storeAll s.slot (slotRun s.cfg s.head n) fs
        head := (s.head + n) % s.cfg.capacity
        headHist := s.headHist ++ [(s.head + n) % s.cfg.capacity]
        portP := .idle
        resultsP := s.resultsP ++ [.ack] } := by
  simp only [pushComplete, advanceIndex, wrap_eq_mod, respond]

end

/-- R62, R125: frame `i` of a transfer of at most a lap is in slot `(b + i) mod C`. -/
theorem memRead_storeAll_slotRun {c : Config} {b n i : Nat} {fs : List Frame} (m : Memory) (hn : n ≤ c.capacity)
    (hlen : fs.length = n) (hi : i < n) :
    memRead (storeAll m (slotRun c b n) fs) ((b + i) % c.capacity) = fs[i]? := by
  have hrun : i < (slotRun c b n).length := by rwa [slotRun_length]
  have hread := memRead_storeAll (m := m) (slotRun_nodup (b := b) hn) (hlen.trans (slotRun_length c b n).symm) i hrun
  rwa [slotRun_getElem, wrap_eq_mod] at hread

/-- R125: a byte outside the slots of a transfer reads as before. -/
theorem memByte_storeAll_slotRun {c : Config} {b n a : Nat} (m : Memory) (fs : List Frame)
    (ha : ∀ i, i < n → a / 8 ≠ (b + i) % c.capacity) :
    memByte (storeAll m (slotRun c b n) fs) a = memByte m a := by
  have hout : a / 8 ∉ slotRun c b n := fun hmem => by
    obtain ⟨i, hi, hslot⟩ := mem_slotRun.1 hmem
    exact ha i hi (hslot.symm.trans (wrap_eq_mod c _))
  rw [memByte, memByte, memRead_storeAll_of_notMem fs hout]

/-- R126: a PUSH of at least one frame, run to its end under any view: the frames kept are behind the live ones, and nothing of
port C is written. -/
theorem RingInv.push_run_kept {s : State} (h : RingInv s) (henabled : StepsEnabled s) (hidle : s.portP = .idle)
    {src : List Frame} {draw : Nat} {rest : List Move} (hpos : 1 ≤ src.length) (hwf : (Instr.push src.length).wf = true)
    (hs : s.schedule = callPush src draw :: .completeP :: rest) :
    ∃ j t s', ProducerMaySee s j t ∧ runSteps 2 s = .next s' ∧
      live s' = live s ++ (src.take (kept s src.length t)).map some ∧ s'.portP = .idle ∧
      s' = { s with
        slot := s'.slot
        head := s'.head
        headHist := s'.headHist
        pSeen := j
        portP := s'.portP
        resultsP := s.resultsP ++ [.ack]
        bus := s'.bus
        schedule := rest } := by
  have hstep := step_of_call hwf hs
  obtain ⟨j, t, hsee, hv⟩ := producerSnapshotDraws.2
    { s with schedule := .completeP :: rest, bus := ⟨.p, encode (.push src.length), src, draw⟩ } h.tails.view
  replace hstep := hstep.trans (exec_push_of_view hv henabled rfl hidle rfl hpos)
  refine ⟨j, t, ?_⟩
  split at hstep
  case isTrue hnone =>
    have hkept : kept s src.length t = 0 := hnone
    refine ⟨_, hsee, runSteps_two hstep (step_completeP_idle henabled rfl hidle), ?_, hidle, rfl⟩
    rw [hkept, List.take_zero, List.map_nil, List.append_nil]
    rfl
  case isFalse =>
    have hinv := stepKeepsInvariant _ _ h hstep
    exact ⟨_, hsee, runSteps_two hstep (step_completeP (by exact henabled) rfl rfl),
      (hinv.withRecords ..).live_pushComplete rfl, rfl, rfl⟩

/-- Settles O21: the checks pass, and a count of 0 is answered before any snapshot. -/
theorem pushOfNothingIsNoOp : Obligations.PushOfNothingIsNoOp := by
  intro s henabled hport hidle hnil
  exact exec_push_eq henabled hport hidle (List.length_eq_zero_iff.2 hnil)

/-- Settles O22: some entry is there to be seen, and `kept` is the number of frames that fit from it. -/
theorem pushIssueKeepsWhatFits : Obligations.PushIssueKeepsWhatFits := by
  intro s count henabled hport hidle hlen hpos hview
  obtain ⟨j, t, hsee, hv⟩ := producerSnapshotDraws.2 s hview
  exact ⟨j, t, kept s count t, hsee, rfl, exec_push_of_view hv henabled hport hidle hlen hpos⟩

/-- Settles O23: nothing is kept where the entry seen shows no free space, and on a full ring every entry is such. -/
theorem fullRingDropsWholeBatch : Obligations.FullRingDropsWholeBatch := by
  intro s count henabled hport hidle hlen hpos
  have hdrop : ∀ j t, viewTail s = some (t, { s with pSeen := j }) → free s.cfg s.head t = 0 →
      exec (.push count) s = .next { s with pSeen := j, resultsP := s.resultsP ++ [.ack] } := by
    intro j t hv hfree
    rw [exec_push_of_view hv henabled hport hidle hlen hpos, if_pos (kept_eq_zero hfree)]
  constructor
  · intro t s1 hv hfree
    obtain ⟨j, -, rfl⟩ := viewTail_eq_some hv
    exact hdrop j t hv hfree
  · intro hinv hfull
    obtain ⟨j, t, hsee, hv⟩ := producerSnapshotDraws.2 s hinv.tails.view
    exact ⟨j, hdrop j t hv (hinv.free_eq_zero_of_isFull hfull hsee)⟩

/-- Settles O24: the slots of the transfer are distinct, so each frame is read back and no other slot is touched. -/
theorem pushCompletionStores : Obligations.PushCompletionStores := by
  intro s n fs rest henabled hs hbusy _ hmax hlen
  refine ⟨storeAll s.slot (slotRun s.cfg s.head n) fs, ?_, fun i hi => ?_, fun a ha => ?_⟩
  · rw [step_completeP henabled hs hbusy, pushComplete_eq]
  · exact memRead_storeAll_slotRun s.slot (hmax.trans (Nat.sub_le _ 1)) hlen hi
  · exact memByte_storeAll_slotRun s.slot fs ha

/-- Settles O26: the presented word is the word of its command, and `RingInv.push_run_kept` runs that call to its end. -/
theorem pushKeepsFirstFramesInOrder : Obligations.PushKeepsFirstFramesInOrder := by
  rintro s _ w src draw rest hinv henabled hidle hd rfl hpos hs
  obtain ⟨hwf, rfl⟩ := decode_eq_ok_iff.1 hd
  obtain ⟨j, t, s', hsee, hrun, hlive, hportP, hframe⟩ := hinv.push_run_kept henabled hidle hpos hwf hs
  have hfault : s'.fault = .noFault := by rw [hframe, henabled.2]
  exact ⟨j, t, s', hsee, hrun, hlive, hportP, by rw [hframe], by rw [hframe], hfault, by rw [hframe]⟩

/-- Settles O27: without stale views the producer sees `tail`, from which an empty ring has `C - 1` free slots. -/
theorem oversizePushFillsEmptyRing : Obligations.OversizePushFillsEmptyRing := by
  intro s src draw rest hinv henabled hfresh hidle hempty hover hcount hs
  have hnone := hinv.isEmpty_iff.1 hempty
  have hpos : 1 ≤ src.length := (capacity_pos s.cfg).trans_le hover
  obtain ⟨j, t, s', hsee, hrun, hlive, -, hframe⟩ := hinv.push_run_kept henabled hidle hpos (decide_eq_true hcount) hs
  have hkept : kept s src.length t = s.cfg.capacity - 1 := by
    rw [kept, free, hinv.eq_tail hfresh hsee, hnone]
    omega
  rw [hkept, List.length_eq_zero_iff.1 ((live_length s).trans hnone), List.nil_append] at hlive
  refine ⟨s', hrun, hlive, ?_⟩
  have hcfg : s'.cfg = s.cfg := by rw [hframe]
  rw [isFull, beq_iff_eq, ← live_length, hlive, List.length_map, List.length_take, hcfg]
  omega

end Sys2Proof.Machine
end

section
/-! POP (41_pop.md): its issue step as one equation for the view it draws, its completion step in both outcomes, and the two
run in a row. -/

namespace Sys2Proof.Machine

section
variable {s : State} {most : Nat}

/-- R143, R144: a POP of at least one frame that passes its checks, for the entry that its snapshot answers. -/
theorem exec_pop_of_view {j h : Nat} (hv : viewHead s = some (h, { s with cSeen := j })) (henabled : StepsEnabled s)
    (hport : s.bus.port = .c) (hidle : s.portC = .idle) (hpos : 1 ≤ most) :
    exec (.pop most) s =
      .next (if taken s most h = 0 then { s with cSeen := j, resultsC := s.resultsC ++ [.popped 0#32 []] }
        else { s with cSeen := j, portC := .popBusy (taken s most h) }) := by
  rw [exec_pop_eq henabled hport hidle, if_neg (Nat.one_le_iff_ne_zero.1 hpos), popIssue, hv]
  exact (apply_ite Host.Outcome.next _ _ _).symm

/-- R144: with nothing available in view nothing is taken. -/
theorem taken_eq_zero {h : Nat} (hnone : available s.cfg h s.tail = 0) : taken s most h = 0 := by
  rw [taken, hnone, Nat.zero_min]

/-- R88, R144: an empty ring shows nothing available, whichever entry the consumer sees. -/
theorem RingInv.available_eq_zero_of_isEmpty (hinv : RingInv s) (hempty : isEmpty s = true) {j h : Nat}
    (hsee : ConsumerMaySee s j h) : available s.cfg h s.tail = 0 :=
  Nat.eq_zero_of_le_zero (hinv.isEmpty_iff.1 hempty ▸ hinv.consumerView_le_used hsee)

/-- R83: any number of the oldest live slots can be read. -/
theorem RingInv.exists_loadAll (hinv : RingInv s) {n : Nat} (hn : n ≤ used s.cfg s.head s.tail) :
    ∃ fs, loadAll s.slot (slotRun s.cfg s.tail n) = some fs := by
  refine Option.ne_none_iff_exists'.1 fun hnone => ?_
  obtain ⟨a, ha, hread⟩ := loadAll_eq_none.1 hnone
  obtain ⟨i, hi, rfl⟩ := mem_slotRun.1 ha
  exact hinv.written i (hi.trans_le hn) hread

end

/-- R62, R145: a transfer reads `fs` when slot `(b + i) mod C` holds its frame `i`, for every frame. -/
theorem loadAll_slotRun_eq_some {c : Config} {b n : Nat} {m : Memory} {fs : List Frame} (hlen : fs.length = n)
    (hread : ∀ i, i < n → memRead m ((b + i) % c.capacity) = fs[i]?) : loadAll m (slotRun c b n) = some fs := by
  refine loadAll_eq_some.2 (List.ext_getElem (by simp [hlen]) fun i hi hi' => ?_)
  simp only [List.length_map] at hi hi'
  rw [List.getElem_map, List.getElem_map, slotRun_getElem, wrap_eq_mod, hread i (hlen ▸ hi'), List.getElem?_eq_getElem hi']

/-- R62, R145: a transfer that meets a slot with no frame reads nothing. -/
theorem loadAll_slotRun_eq_none {c : Config} {b n i : Nat} {m : Memory} (hi : i < n)
    (hread : memRead m ((b + i) % c.capacity) = none) : loadAll m (slotRun c b n) = none :=
  loadAll_eq_none.2 ⟨_, mem_slotRun.2 ⟨i, hi, wrap_eq_mod c _⟩, hread⟩

/-- R86: the completion step of a POP in flight returns the oldest live frames. -/
theorem RingInv.completeC_busy {s : State} (hinv : RingInv s) (henabled : StepsEnabled s) {n : Nat} {rest : List Move}
    (hs : s.schedule = .completeC :: rest) (hbusy : s.portC = .popBusy n) :
    ∃ s' fs, step s = .next s' ∧ fs.length = n ∧ live s = List.map some fs ++ live s' ∧ s'.portC = .idle ∧
      s' = { s with
        tail := s'.tail
        tailHist := s'.tailHist
        portC := s'.portC
        resultsC := s.resultsC ++ [popResult fs.length fs]
        schedule := rest } := by
  obtain ⟨fs, hload⟩ := hinv.exists_loadAll (hinv.popBusy_le_used hbusy)
  obtain rfl : fs.length = n := (loadAll_length hload).trans (slotRun_length ..)
  have horder : live s = _ :=
    (hinv.withRecords s.fault rest s.bus s.resultsP s.resultsC s.resultsM).live_popComplete hbusy hload
  have hstep := step_completeC henabled hs hbusy
  rw [popComplete_of_loadAll (s := { s with schedule := rest }) hload] at horder hstep
  exact ⟨_, fs, hstep, rfl, horder, rfl, rfl⟩

/-- R146: a POP of at least one frame, run to its end under any view: the frames taken are the oldest live ones, and nothing of
port P is written. A payload has no effect (log 9). -/
theorem RingInv.pop_run_taken {s : State} (hinv : RingInv s) (henabled : StepsEnabled s) (hidle : s.portC = .idle)
    {most draw : Nat} {src : List Frame} {rest : List Move} (hpos : 1 ≤ most) (hwf : (Instr.pop most).wf = true)
    (hs : s.schedule = .present .c (encode (.pop most)) src draw :: .completeC :: rest) :
    ∃ j h s' fs, ConsumerMaySee s j h ∧ runSteps 2 s = .next s' ∧
      fs.length = taken s most h ∧ live s = List.map some fs ++ live s' ∧ s'.portC = .idle ∧
      s' = { s with
        tail := s'.tail
        tailHist := s'.tailHist
        cSeen := j
        portC := s'.portC
        resultsC := s.resultsC ++ [popResult fs.length fs]
        bus := s'.bus
        schedule := rest } := by
  have hstep := step_of_call hwf hs
  obtain ⟨j, h, hsee, hv⟩ := consumerSnapshotDraws.2
    { s with schedule := .completeC :: rest, bus := ⟨.c, encode (.pop most), src, draw⟩ } hinv.heads.view
  replace hstep := hstep.trans (exec_pop_of_view hv henabled rfl hidle hpos)
  refine ⟨j, h, ?_⟩
  split at hstep
  case isTrue hnone =>
    exact ⟨_, [], hsee, runSteps_two hstep (step_completeC_idle henabled rfl hidle), hnone.symm, rfl, hidle, rfl⟩
  case isFalse =>
    obtain ⟨s', fs, hdone, hlen, hlive, hportC, hframe⟩ :=
      (stepKeepsInvariant _ _ hinv hstep).completeC_busy (rest := rest) henabled rfl rfl
    exact ⟨s', fs, hsee, runSteps_two hstep hdone, hlen, hlive, hportC, by rw [hframe]⟩

/-- Settles O28: the checks pass, and a maximum of 0 is answered before any snapshot. -/
theorem popOfNothingIsNoOp : Obligations.PopOfNothingIsNoOp := by
  intro s henabled hport hidle
  exact exec_pop_eq henabled hport hidle

/-- Settles O29: some entry is there to be seen, and `taken` is the number of frames to read from it. -/
theorem popIssueTakesWhatIsThere : Obligations.PopIssueTakesWhatIsThere := by
  intro s most henabled hport hidle hpos hview
  obtain ⟨j, h, hsee, hv⟩ := consumerSnapshotDraws.2 s hview
  exact ⟨j, h, taken s most h, hsee, rfl, exec_pop_of_view hv henabled hport hidle hpos⟩

/-- Settles O30: nothing is taken where the entry seen shows nothing available, and on an empty ring every entry is such. -/
theorem emptyRingPopsNothing : Obligations.EmptyRingPopsNothing := by
  intro s most henabled hport hidle hpos
  have hnothing : ∀ j h, viewHead s = some (h, { s with cSeen := j }) → available s.cfg h s.tail = 0 →
      exec (.pop most) s = .next { s with cSeen := j, resultsC := s.resultsC ++ [.popped 0#32 []] } := by
    intro j h hv hnone
    rw [exec_pop_of_view hv henabled hport hidle hpos, if_pos (taken_eq_zero hnone)]
  constructor
  · intro h s1 hv hnone
    obtain ⟨j, -, rfl⟩ := viewHead_eq_some hv
    exact hnothing j h hv hnone
  · intro hinv hempty
    obtain ⟨j, h, hsee, hv⟩ := consumerSnapshotDraws.2 s hinv.heads.view
    exact ⟨j, hnothing j h hv (hinv.available_eq_zero_of_isEmpty hempty hsee)⟩

/-- Settles O31: the slots of the transfer are read in order, and one that holds nothing makes the whole read fail. -/
theorem popCompletionReturns : Obligations.PopCompletionReturns := by
  intro s n rest henabled hs hbusy
  constructor
  · intro fs hlen hread
    rw [step_completeC henabled hs hbusy,
      popComplete_of_loadAll (s := { s with schedule := rest }) (loadAll_slotRun_eq_some hlen hread), advanceIndex, wrap_eq_mod,
      popResult]
  · rintro ⟨i, hi, hread⟩
    rw [step_completeC henabled hs hbusy,
      popComplete_of_loadAll_none (s := { s with schedule := rest }) (loadAll_slotRun_eq_none hi hread),
      raiseFault_eq _ { s with schedule := rest } henabled.2]

/-- Settles O33: the presented word is the word of its command, and `RingInv.pop_run_taken` runs that command to its end. -/
theorem popReturnsOldestFrames : Obligations.PopReturnsOldestFrames := by
  intro s most w src draw rest hinv henabled hidle hd hpos hs
  obtain ⟨hwf, rfl⟩ := decode_eq_ok_iff.1 hd
  obtain ⟨j, h, s', fs, hsee, hrun, hlen, hlive, hportC, hframe⟩ := hinv.pop_run_taken henabled hidle hpos hwf hs
  have hfault : s'.fault = .noFault := by rw [hframe, henabled.2]
  exact ⟨j, h, s', fs, hsee, hrun, hlen, hlive, by rw [hframe, popResult], hportC, by rw [hframe], by rw [hframe], hfault,
    by rw [hframe]⟩

end Sys2Proof.Machine
end

section
/-! RESET (42_reset.md): both outcomes of the command, its frame, and what POP and PUSH find in the ring it leaves. -/

namespace Sys2Proof.Machine

/-- R162: RESET does not wait for a busy port. -/
theorem exec_reset_of_busy {s : State} (henabled : StepsEnabled s) (hport : s.bus.port = .m)
    (hbusy : s.portP ≠ .idle ∨ s.portC ≠ .idle) : exec .reset s = .next { s with fault := .resetBusy } := by
  have hcheck : resetCheck s = some .resetBusy := if_pos hbusy
  rw [exec, execReset, whenRunning_of_enabled henabled, onPort, if_pos (show s.bus.port = portOf .reset from hport), hcheck]
  exact congrArg Host.Outcome.next (raiseFault_eq _ _ henabled.2)

/-- Settles O34: the check looks at both ports, and `resetRing` writes R161's values. -/
theorem resetEmptiesRing : Obligations.ResetEmptiesRing := fun _ henabled hport =>
  ⟨exec_reset_eq henabled hport, exec_reset_of_busy henabled hport⟩

theorem ResetEffect.frame {s s' : State} (h : ResetEffect s s') :
    s' = { s with
      head := s'.head
      tail := s'.tail
      headHist := s'.headHist
      tailHist := s'.tailHist
      pSeen := s'.pSeen
      cSeen := s'.cSeen
      resultsM := s'.resultsM
      fault := s'.fault } := by
  cases h with
  | rejected | done => rfl

/-- Settles O35: the slots stand outside RESET's frame, so every byte of them reads as before. -/
theorem resetFrame : Obligations.ResetFrame := by
  intro s s' h
  obtain ⟨-, heffect⟩ := execReset_effect h
  exact ⟨heffect.frame, fun a => congrArg (fun t => memByte t.slot a) heffect.frame⟩

/-- R72, R73: a history of one entry leaves a draw no choice. -/
theorem snapshot_singleton (stale : Bool) (d v : Nat) : snapshot stale d 0 [v] = some (0, v) := by
  cases stale with
  | false => rfl
  | true => simp [snapshot, Nat.mod_one]

/-- R17: between equal indices every slot but one is free. -/
theorem free_self (c : Config) (t : Nat) : free c t t = c.capacity - 1 := by rw [free, used_self, Nat.sub_zero]

section
variable {s : State}

theorem viewTail_of_singleton {t : Nat} (hhist : s.tailHist = [t]) (hseen : s.pSeen = 0) : viewTail s = some (t, s) := by
  have hsnap : snapshot s.cfg.staleViews s.bus.draw s.pSeen s.tailHist = some (s.pSeen, t) := by
    rw [hhist, hseen, snapshot_singleton]
  rw [viewTail, hsnap]
  rfl

theorem viewHead_of_singleton {h : Nat} (hhist : s.headHist = [h]) (hseen : s.cSeen = 0) : viewHead s = some (h, s) := by
  have hsnap : snapshot s.cfg.staleViews s.bus.draw s.cSeen s.headHist = some (s.cSeen, h) := by
    rw [hhist, hseen, snapshot_singleton]
  rw [viewHead, hsnap]
  rfl

/-- R163: where the one published `head` is `tail`, a POP finds nothing, whatever its maximum and its draw. -/
theorem exec_pop_of_singleton (hhist : s.headHist = [s.tail]) (hseen : s.cSeen = 0) (henabled : StepsEnabled s)
    (hport : s.bus.port = .c) (hidle : s.portC = .idle) (most : Nat) :
    exec (.pop most) s = .next { s with resultsC := s.resultsC ++ [.popped 0#32 []] } := by
  rcases Nat.eq_zero_or_pos most with rfl | hpos
  · exact popOfNothingIsNoOp s henabled hport hidle
  · have hview := viewHead_of_singleton hhist hseen
    rw [exec_pop_of_view hview henabled hport hidle hpos, if_pos (taken_eq_zero (used_self s.cfg s.tail))]

/-- R163: where the one published `tail` is `head`, a PUSH keeps up to `C - 1` frames, and R10 makes that at least one. -/
theorem exec_push_of_singleton {count : Nat} (hhist : s.tailHist = [s.head]) (hseen : s.pSeen = 0)
    (henabled : StepsEnabled s) (hport : s.bus.port = .p) (hidle : s.portP = .idle) (hlen : s.bus.src.length = count)
    (hpos : 1 ≤ count) :
    exec (.push count) s =
      .next { s with
        portP := .pushBusy (min count (s.cfg.capacity - 1)) (s.bus.src.take (min count (s.cfg.capacity - 1))) } := by
  have hview := viewTail_of_singleton hhist hseen
  have hkept : kept s count s.head = min count (s.cfg.capacity - 1) := by rw [kept, free_self]
  have hsome : min count (s.cfg.capacity - 1) ≠ 0 := by
    have := two_le_capacity henabled.1
    omega
  rw [exec_push_of_view hview henabled hport hidle hlen hpos, hkept, if_neg hsome]

end

/-- R163: equal indices leave no slot live. -/
theorem live_resetRing (s : State) : live (resetRing s) = [] :=
  List.length_eq_zero_iff.1 ((live_length _).trans (used_self s.cfg 0))

/-- Settles O37: RESET leaves `resetRing s`, where both indices are 0 and each history holds one entry, seen by its reader. -/
theorem afterResetNothingIsLive : Obligations.AfterResetNothingIsLive := by
  intro s s1 henabled hport hp hc hexec
  rw [exec_reset_eq henabled hport hp hc] at hexec
  cases hexec
  refine ⟨live_resetRing s, fun b most hb => ?_, fun b n hb hlen hpos => ?_⟩
  · exact exec_pop_of_singleton (s := { resetRing s with bus := b }) rfl rfl henabled hb hc most
  · exact exec_push_of_singleton (s := { resetRing s with bus := b }) rfl rfl henabled hb hp hlen hpos

end Sys2Proof.Machine
end

section
/-! A step that presents a command, check by check (60_exceptions.md R172 to R177): each check that fails writes its code to the
fault register and nothing else. -/

namespace Sys2Proof.Machine

section
variable {s : State}

/-! ### A presented word -/

theorem present_of_decode {w : Word} {i : Instr} (hd : decode w = .ok i) : present w s = exec i s := by
  rw [present, hd]

/-- R173: a word that is no command is rejected on whatever port it arrives. -/
theorem present_of_illegal (henabled : StepsEnabled s) {w : Word} {e : Illegal} (hd : decode w = .error e) :
    present w s = .next { s with fault := .illegalCommand } := by
  rw [present, hd]
  exact (whenRunning_of_enabled henabled _).trans (congrArg Host.Outcome.next (raiseFault_eq _ _ henabled.2))

theorem step_of_present {b : Bus} (hm : nextMove s = some (.present b.port b.word b.src b.draw)) :
    step s = present b.word (presented s b) := by
  rw [step, hm]
  rfl

theorem step_of_scheduled {port : Port} {w : Word} {src : List Frame} {draw : Nat} {rest : List Move}
    (hs : s.schedule = .present port w src draw :: rest) :
    step s = present w { s with schedule := rest, bus := ⟨port, w, src, draw⟩ } := by
  rw [step_of_present (b := ⟨port, w, src, draw⟩) (nextMove_of_schedule hs), presented, hs, List.tail_cons]

/-! ### The checks of each command -/

/-- R174. -/
theorem exec_of_wrongPort (henabled : StepsEnabled s) {i : Instr} (hport : s.bus.port ≠ portOf i) :
    exec i s = .next { s with fault := .wrongPort } := by
  have hraise : ∀ out, whenRunning s (onPort (portOf i) s out) = .next { s with fault := .wrongPort } := fun out => by
    rw [whenRunning_of_enabled henabled, onPort, if_neg hport, raiseFault_eq _ _ henabled.2]
  cases i with
  | push | pop | reset => exact hraise _

theorem exec_push_of_check (henabled : StepsEnabled s) (hport : s.bus.port = .p) {count : Nat} {code : FaultCode}
    (hcheck : pushIssueCheck count s = some code) : exec (.push count) s = .next { s with fault := code } := by
  rw [exec, execPush, whenRunning_of_enabled henabled, onPort, if_pos (show s.bus.port = portOf (.push count) from hport), hcheck]
  exact congrArg Host.Outcome.next (raiseFault_eq _ _ henabled.2)

/-- R175: a busy port P comes before the payload's length. -/
theorem exec_push_of_busy (henabled : StepsEnabled s) (hport : s.bus.port = .p) (hbusy : s.portP ≠ .idle) (count : Nat) :
    exec (.push count) s = .next { s with fault := .portBusy } :=
  exec_push_of_check henabled hport (if_pos hbusy)

/-- R177. -/
theorem exec_push_of_length (henabled : StepsEnabled s) (hport : s.bus.port = .p) (hidle : s.portP = .idle) {count : Nat}
    (hlen : s.bus.src.length ≠ count) : exec (.push count) s = .next { s with fault := .payloadLength } :=
  exec_push_of_check henabled hport (by rw [pushIssueCheck, if_neg (not_not_intro hidle), if_pos hlen])

/-- R175. -/
theorem exec_pop_of_busy (henabled : StepsEnabled s) (hport : s.bus.port = .c) (hbusy : s.portC ≠ .idle) (most : Nat) :
    exec (.pop most) s = .next { s with fault := .portBusy } := by
  have hcheck : popIssueCheck s = some .portBusy := if_pos hbusy
  rw [exec, execPop, whenRunning_of_enabled henabled, onPort, if_pos (show s.bus.port = portOf (.pop most) from hport), hcheck]
  exact congrArg Host.Outcome.next (raiseFault_eq _ _ henabled.2)

end

/-! ### What a command does to the fault register -/

/-- A command was rejected: its checks `ok` do not all pass, and the fault register alone is written, with the code of a check. -/
structure Rejected (ok : Prop) (s s' : State) : Prop where
  failed : ¬ok
  frame : s' = { s with fault := s'.fault }
  code : s'.fault ≠ .unwrittenSlot

section
variable {s s' : State}

theorem PushEffect.fault_cases {count : Nat} (he : PushEffect count s s') :
    s'.fault = s.fault ∨ Rejected (s.bus.port = .p ∧ s.portP = .idle ∧ s.bus.src.length = count) s s' := by
  cases he with
  | rejected code hc hbad =>
    have hcode : code ≠ .unwrittenSlot := by rcases hc with rfl | rfl | rfl <;> decide
    exact .inr ⟨hbad, rfl, hcode⟩
  | nothing | dropped | taken => exact .inl rfl

theorem PopEffect.fault_cases {most : Nat} (he : PopEffect most s s') :
    s'.fault = s.fault ∨ Rejected (s.bus.port = .c ∧ s.portC = .idle) s s' := by
  cases he with
  | rejected code hc hbad =>
    have hcode : code ≠ .unwrittenSlot := by rcases hc with rfl | rfl <;> decide
    exact .inr ⟨hbad, rfl, hcode⟩
  | nothing | empty | found => exact .inl rfl

theorem ResetEffect.fault_cases (he : ResetEffect s s') :
    s'.fault = s.fault ∨ Rejected (s.bus.port = .m ∧ s.portP = .idle ∧ s.portC = .idle) s s' := by
  cases he with
  | rejected code hc hbad =>
    have hcode : code ≠ .unwrittenSlot := by rcases hc with rfl | rfl <;> decide
    exact .inr ⟨hbad, rfl, hcode⟩
  | done => exact .inl rfl

/-- A command whose checks pass leaves the fault register alone. -/
theorem fault_eq_of_passed {ok : Prop} (hcases : s'.fault = s.fault ∨ Rejected ok s s') (hok : ok) : s'.fault = s.fault :=
  hcases.resolve_right fun hrejected => hrejected.failed hok

end

/-! ### The obligations -/

/-- Settles O6: the step takes the move, drives the bus and decodes the word. -/
theorem stepRunsDecodedCommand : Obligations.StepRunsDecodedCommand := by
  intro s port w src draw rest i hs hd
  rw [step_of_scheduled hs, present_of_decode hd]

/-- Settles O8: the two reserved lines of R107 decode to an error. -/
theorem reservedWordRaisesIllegalCommand : Obligations.ReservedWordRaisesIllegalCommand := by
  refine ⟨rfl, fun s port w src draw rest henabled hs hreserved => ?_⟩
  obtain ⟨-, -, -, hresetCount, hop⟩ := decodeReadsOpAndCount w
  have herror : ∃ e, decode w = .error e := hreserved.elim hop fun h => hresetCount h.1 h.2
  obtain ⟨e, hd⟩ := herror
  rw [step_of_scheduled hs]
  exact present_of_illegal (s := { s with schedule := rest, bus := ⟨port, w, src, draw⟩ }) henabled hd

/-- Settles O9: neither of the other two ports is the command's own. -/
theorem wrongPortRaised : Obligations.WrongPortRaised := by
  refine ⟨rfl, fun s henabled => ⟨fun n hport => ?_, fun n hport => ?_, fun hport => ?_⟩⟩
  all_goals
    refine exec_of_wrongPort henabled ?_
    rcases hport with hport | hport <;> simp [hport, portOf]

/-- Settles O10: the busy port is the first check of both commands on their own port. -/
theorem portBusyRaised : Obligations.PortBusyRaised :=
  ⟨rfl, fun _ henabled =>
    ⟨fun n hport hbusy => exec_push_of_busy henabled hport hbusy n, fun n hport hbusy => exec_pop_of_busy henabled hport hbusy n⟩⟩

/-- Settles O11: RESET's check looks at both ports. -/
theorem resetBusyRaised : Obligations.ResetBusyRaised := ⟨rfl, fun _ => exec_reset_of_busy⟩

/-- Settles O12: with port P idle the length is the check that is left. -/
theorem payloadLengthRaised : Obligations.PayloadLengthRaised :=
  ⟨rfl, fun _ _ henabled hport hidle hlen => exec_push_of_length henabled hport hidle hlen⟩

/-- Settles O7: each check is the one lemma above for it, and a command whose checks pass keeps the fault register, which is 0. -/
theorem checksRunInOrder : Obligations.ChecksRunInOrder := by
  rintro s _ port w src draw rest henabled hs rfl
  have henabled0 : StepsEnabled { s with schedule := rest, bus := ⟨port, w, src, draw⟩ } := henabled
  have hstep : ∀ {i}, decode w = .ok i → step s = exec i _ := fun hd => stepRunsDecodedCommand _ _ _ _ _ _ _ hs hd
  refine ⟨fun e hd => ?illegal, fun i hd hport => ?wrongPort, ?push, ?pop, ?reset⟩
  case illegal => exact (step_of_scheduled hs).trans (present_of_illegal henabled0 hd)
  case wrongPort => exact (hstep hd).trans (exec_of_wrongPort henabled0 hport)
  case push =>
    rintro count hd rfl
    rw [hstep hd]
    refine ⟨fun hbusy => exec_push_of_busy henabled0 rfl hbusy count, fun hidle hlen => exec_push_of_length henabled0 rfl hidle hlen,
      fun hidle hlen s' h => ?_⟩
    obtain ⟨-, he⟩ := execPush_effect h
    exact (fault_eq_of_passed he.fault_cases ⟨rfl, hidle, hlen⟩).trans henabled.2
  case pop =>
    rintro most hd rfl
    rw [hstep hd]
    refine ⟨fun hbusy => exec_pop_of_busy henabled0 rfl hbusy most, fun hidle s' h => ?_⟩
    obtain ⟨-, he⟩ := execPop_effect h
    exact (fault_eq_of_passed he.fault_cases ⟨rfl, hidle⟩).trans henabled.2
  case reset =>
    rintro hd rfl
    rw [hstep hd]
    refine ⟨fun hbusy => exec_reset_of_busy henabled0 rfl hbusy, fun hp hc s' h => ?_⟩
    obtain ⟨-, he⟩ := execReset_effect h
    exact (fault_eq_of_passed he.fault_cases ⟨rfl, hp, hc⟩).trans henabled.2

/-- R171: the guard stops a faulted block. -/
theorem whenRunning_of_faulted {s : State} (hwf : s.cfg.wf = true) (hfault : s.fault ≠ .noFault) (out : Out) :
    whenRunning s out = .fault (.blockFaulted s.fault) := by
  rw [whenRunning, if_neg (by simp [hwf]), if_neg hfault]

/-- Settles O14: a step and a command both answer through `whenRunning`, which stops whatever they would have done. -/
theorem faultedBlockTakesNoStep : Obligations.FaultedBlockTakesNoStep := by
  intro s hwf hfault
  constructor
  · obtain ⟨out, hstep⟩ := step_guarded s
    exact hstep.trans (whenRunning_of_faulted hwf hfault out)
  · intro i
    obtain ⟨out, hexec⟩ := exec_guarded i s
    exact hexec.trans (whenRunning_of_faulted hwf hfault out)

end Sys2Proof.Machine
end

section
/-! How a step can come to raise a fault (60_exceptions.md R171, R178, R190): by a command the port discipline forbids, or by a POP
completion that meets a slot with no frame, which the invariant excludes. -/

namespace Sys2Proof.Machine

/-- What a step can do to the fault register. -/
inductive FaultEffect (s : State) : State → Prop where
  /-- Nothing. -/
  | kept (s' : State) (hsame : s'.fault = s.fault) : FaultEffect s s'
  /-- A command that breaks the port discipline is rejected. -/
  | rejected (code : FaultCode) (b : Bus) (hcode : code ≠ .unwrittenSlot) (hbad : disciplined s = false) :
      FaultEffect s { presented s b with fault := code }
  /-- A POP completion meets a slot with no frame. -/
  | unwritten (n : Nat) (hbusy : s.portC = .popBusy n) (hload : loadAll s.slot (slotRun s.cfg s.tail n) = none) :
      FaultEffect s (raiseFault .unwrittenSlot (takeMove s))

section
variable {s s' : State}

/-- A command's effect on the fault register is the step's, when the discipline asks for the checks that the command makes. -/
theorem FaultEffect.of_command {b : Bus} {ok : Prop} (hdisc : disciplined s = true → ok)
    (hcases : s'.fault = (presented s b).fault ∨ Rejected ok (presented s b) s') : FaultEffect s s' := by
  rcases hcases with hsame | ⟨hfailed, hframe, hcode⟩
  · exact .kept s' hsame
  · rw [hframe]
    exact .rejected s'.fault b hcode (Bool.eq_false_iff.2 fun h => hfailed (hdisc h))

theorem StepEffect.faultEffect (he : StepEffect s s') : FaultEffect s s' := by
  cases he with
  | idle | skipP | skipC | stored => exact .kept _ rfl
  | returned n _ hbusy =>
    cases hload : loadAll s.slot (slotRun s.cfg s.tail n) with
    | none =>
      rw [popComplete_of_loadAll_none (s := takeMove s) hload]
      exact .unwritten n hbusy hload
    | some fs =>
      rw [popComplete_of_loadAll (s := takeMove s) hload]
      exact .kept _ rfl
  | illegal b e hm hd => exact .rejected _ b (by decide) (by simp [disciplined, hm, hd])
  | push b count _ hm hd he => exact .of_command (by simp [disciplined, hm, hd, presented]) he.fault_cases
  | pop b most _ hm hd he => exact .of_command (by simp [disciplined, hm, hd, presented]) he.fault_cases
  | reset b _ hm hd he => exact .of_command (by simp [disciplined, hm, hd, presented]) he.fault_cases

/-- R83: a POP in flight finds a frame in each of its slots, so that only commands raise faults. -/
theorem RingInv.fault_cases (h : RingInv s) (he : FaultEffect s s') :
    s'.fault = s.fault ∨ disciplined s = false ∧ s'.fault ≠ .unwrittenSlot := by
  cases he with
  | kept _ hsame => exact .inl hsame
  | rejected code b hcode hbad => exact .inr ⟨hbad, hcode⟩
  | unwritten n hbusy hload =>
    obtain ⟨fs, hsome⟩ := h.exists_loadAll (h.popBusy_le_used hbusy)
    exact nomatch hload.symm.trans hsome

/-! ### Every enabled state of the invariant has a next state -/

theorem RingInv.exists_exec_push (h : RingInv s) (henabled : StepsEnabled s) (count : Nat) :
    ∃ s', exec (.push count) s = .next s' := by
  by_cases hport : s.bus.port = .p
  case neg => exact ⟨_, exec_of_wrongPort henabled hport⟩
  by_cases hidle : s.portP = .idle
  case neg => exact ⟨_, exec_push_of_busy henabled hport hidle count⟩
  by_cases hlen : s.bus.src.length = count
  case neg => exact ⟨_, exec_push_of_length henabled hport hidle hlen⟩
  rcases Nat.eq_zero_or_pos count with hzero | hpos
  · exact ⟨_, (exec_push_eq henabled hport hidle hlen).trans (if_pos hzero)⟩
  · obtain ⟨t, s1, hv⟩ := exists_viewTail h.tails.view
    obtain ⟨j, -, rfl⟩ := viewTail_eq_some hv
    exact ⟨_, exec_push_of_view hv henabled hport hidle hlen hpos⟩

theorem RingInv.exists_exec_pop (h : RingInv s) (henabled : StepsEnabled s) (most : Nat) :
    ∃ s', exec (.pop most) s = .next s' := by
  by_cases hport : s.bus.port = .c
  case neg => exact ⟨_, exec_of_wrongPort henabled hport⟩
  by_cases hidle : s.portC = .idle
  case neg => exact ⟨_, exec_pop_of_busy henabled hport hidle most⟩
  rcases Nat.eq_zero_or_pos most with hzero | hpos
  · exact ⟨_, (exec_pop_eq henabled hport hidle).trans (if_pos hzero)⟩
  · obtain ⟨v, s1, hv⟩ := exists_viewHead h.heads.view
    obtain ⟨j, -, rfl⟩ := viewHead_eq_some hv
    exact ⟨_, exec_pop_of_view hv henabled hport hidle hpos⟩

theorem exists_exec_reset (henabled : StepsEnabled s) : ∃ s', exec .reset s = .next s' := by
  by_cases hport : s.bus.port = .m
  case neg => exact ⟨_, exec_of_wrongPort henabled hport⟩
  by_cases hbusy : s.portP ≠ .idle ∨ s.portC ≠ .idle
  · exact ⟨_, exec_reset_of_busy henabled hport hbusy⟩
  · obtain ⟨hp, hc⟩ := not_or.1 hbusy
    exact ⟨_, exec_reset_eq henabled hport (not_not.1 hp) (not_not.1 hc)⟩

theorem RingInv.exists_present (h : RingInv s) (henabled : StepsEnabled s) (w : Word) : ∃ s', present w s = .next s' := by
  cases hd : decode w with
  | error e => exact ⟨_, present_of_illegal henabled hd⟩
  | ok i =>
    rw [present_of_decode hd]
    cases i with
    | push count => exact h.exists_exec_push henabled count
    | pop most => exact h.exists_exec_pop henabled most
    | reset => exact exists_exec_reset henabled

theorem exists_completeP (henabled : StepsEnabled s) : ∃ s', completeP s = .next s' := by
  rw [completeP, whenRunning_of_enabled henabled]
  cases s.portP with
  | idle | pushBusy => exact ⟨_, rfl⟩

theorem exists_completeC (henabled : StepsEnabled s) : ∃ s', completeC s = .next s' := by
  rw [completeC, whenRunning_of_enabled henabled]
  cases s.portC with
  | idle | popBusy => exact ⟨_, rfl⟩

/-- R171: while there is no fault a step is enabled. Only a snapshot with no entry to draw could stop it, and the invariant keeps
each view within its history. -/
theorem RingInv.exists_step (h : RingInv s) (henabled : StepsEnabled s) : ∃ s', step s = .next s' := by
  cases hm : nextMove s with
  | none => exact ⟨s, by rw [step, hm]; exact whenRunning_of_enabled henabled _⟩
  | some m =>
    cases m with
    | present port w src draw =>
      rw [step_of_present (b := ⟨port, w, src, draw⟩) hm]
      exact (h.keep_presented _).exists_present henabled w
    | completeP =>
      rw [step, hm]
      exact exists_completeP (s := takeMove s) henabled
    | completeC =>
      rw [step, hm]
      exact exists_completeC (s := takeMove s) henabled

/-- R178: no run from a state of the invariant raises UNWRITTEN_SLOT. -/
theorem RingInv.run_fault_ne_unwrittenSlot {k : Nat} (h : RingInv s) (hfault : s.fault ≠ .unwrittenSlot)
    (hrun : runSteps k s = .next s') : s'.fault ≠ .unwrittenSlot := by
  induction k generalizing s with
  | zero => cases hrun; exact hfault
  | succ k ih =>
    obtain ⟨s1, hstep, hrest⟩ := runSteps_succ_eq_next.1 hrun
    have hfault1 : s1.fault ≠ .unwrittenSlot := by
      rcases h.fault_cases (step_effect hstep).2.faultEffect with hsame | ⟨-, hcode⟩
      · rwa [hsame]
      · exact hcode
    exact ih (stepKeepsInvariant s s1 h hstep) hfault1 hrest

end

/-! ### The obligations -/

/-- Settles O13: a step is taken only with the fault register at 0, and one that writes it writes nothing else of the block. -/
theorem faultingStepChangesOnlyFault : Obligations.FaultingStepChangesOnlyFault := by
  intro s s' hstep hraised
  obtain ⟨⟨-, hfault⟩, heffect⟩ := step_effect hstep
  refine ⟨hfault, ?_⟩
  cases heffect.faultEffect with
  | kept _ hsame => exact absurd (hsame.trans hfault) hraised
  | rejected => rfl
  | unwritten =>
    rw [raiseFault_eq _ (takeMove s) hfault]
    rfl

/-- Settles O49: power-on meets the invariant with no fault. -/
theorem unwrittenSlotIsUnreachable : Obligations.UnwrittenSlotIsUnreachable := fun _ moves _ _ hwf hrun =>
  (ringInv_powerOn moves hwf).run_fault_ne_unwrittenSlot (by simp [State.powerOn]) hrun

/-- Settles O57: the invariant gives a next state, and the discipline leaves no way to a fault. -/
theorem disciplineExcludesFaults : Obligations.DisciplineExcludesFaults := by
  intro s hinv henabled hdisc
  obtain ⟨s', hstep⟩ := hinv.exists_step henabled
  have hsame : s'.fault = s.fault := by
    refine (hinv.fault_cases (step_effect hstep).2.faultEffect).resolve_right ?_
    rintro ⟨hbad, -⟩
    exact absurd (hdisc.symm.trans hbad) (by decide)
  exact ⟨s', hstep, hsame.trans henabled.2⟩

end Sys2Proof.Machine
end

section
/-! Progress (70_reset_and_hazards.md R202): the completion of a busy port stays enabled until a fault is raised, and a silent
environment lets it come. -/

namespace Sys2Proof.Machine

section
variable {s s' : State}

/-! ### The completion of a busy port -/

theorem exists_pushBusy (hbusy : s.portP ≠ .idle) : ∃ n fs, s.portP = .pushBusy n fs := by
  cases hp : s.portP with
  | idle => exact absurd hp hbusy
  | pushBusy n fs => exact ⟨n, fs, rfl⟩

theorem exists_popBusy (hbusy : s.portC ≠ .idle) : ∃ n, s.portC = .popBusy n := by
  cases hc : s.portC with
  | idle => exact absurd hc hbusy
  | popBusy n => exact ⟨n, rfl⟩

/-- R125: a PUSH in flight can complete, with an ACK and no fault, whatever else stands in the state. -/
theorem push_completes (henabled : StepsEnabled s) (hbusy : s.portP ≠ .idle) :
    ∃ t, step { s with schedule := .completeP :: s.schedule } = .next t ∧ t.portP = .idle ∧ t.fault = .noFault ∧
      t.resultsP = s.resultsP ++ [.ack] ∧ t.schedule = s.schedule := by
  obtain ⟨n, fs, hphase⟩ := exists_pushBusy hbusy
  refine ⟨pushComplete n fs s, step_completeP (by exact henabled) rfl hphase, ?_⟩
  rw [pushComplete_eq]
  exact ⟨rfl, henabled.2, rfl, rfl⟩

/-- R145: a POP in flight can complete, with its frames and no fault, since the invariant has a frame in each of its slots. -/
theorem RingInv.pop_completes (h : RingInv s) (henabled : StepsEnabled s) (hbusy : s.portC ≠ .idle) :
    ∃ t r, step { s with schedule := .completeC :: s.schedule } = .next t ∧ t.portC = .idle ∧ t.fault = .noFault ∧
      t.resultsC = s.resultsC ++ [r] ∧ t.schedule = s.schedule ∧ t.portP = s.portP := by
  obtain ⟨n, hphase⟩ := exists_popBusy hbusy
  have hscheduled : RingInv { s with schedule := .completeC :: s.schedule } := h.withRecords ..
  obtain ⟨t, fs, hstep, -, -, hidle, hframe⟩ := hscheduled.completeC_busy henabled rfl hphase
  refine ⟨t, popResult fs.length fs, hstep, hidle, ?_⟩
  rw [hframe]
  exact ⟨henabled.2, rfl, rfl, rfl⟩

/-! ### No other step ends the phase of a busy port -/

/-- R122: a PUSH presented on a busy port is rejected. -/
theorem PushEffect.portP_of_busy {count : Nat} (he : PushEffect count s s') (hbusy : s.portP ≠ .idle) : s'.portP = s.portP := by
  cases he with
  | rejected => rfl
  | nothing _ hidle | dropped _ _ _ hidle | taken _ _ _ _ hidle => exact absurd hidle hbusy

/-- R142: a POP presented on a busy port is rejected. -/
theorem PopEffect.portC_of_busy {most : Nat} (he : PopEffect most s s') (hbusy : s.portC ≠ .idle) : s'.portC = s.portC := by
  cases he with
  | rejected => rfl
  | nothing _ hidle | empty _ _ _ hidle | found _ _ _ _ hidle => exact absurd hidle hbusy

/-- R161: RESET writes no phase. -/
theorem ResetEffect.ports (he : ResetEffect s s') : s'.portP = s.portP ∧ s'.portC = s.portC := by
  rw [he.frame]
  exact ⟨rfl, rfl⟩

@[simp] theorem popComplete_portP (n : Nat) (s : State) : (popComplete n s).portP = s.portP := by
  rcases popComplete_cases n s with hpop | ⟨fs, -, hpop⟩ <;> simp [hpop]

/-- R80: a PUSH in flight stays in flight until its completion. -/
theorem StepEffect.portP_of_busy (he : StepEffect s s') (hm : nextMove s ≠ some .completeP) (hbusy : s.portP ≠ .idle) :
    s'.portP = s.portP := by
  cases he with
  | idle | skipP | skipC | illegal => rfl
  | stored _ _ hcomplete => exact absurd hcomplete hm
  | returned n => exact popComplete_portP n (takeMove s)
  | push b _ _ _ _ he => exact he.portP_of_busy (s := presented s b) hbusy
  | pop b _ _ _ _ he => rw [he.frame, presented]
  | reset b _ _ _ he => exact he.ports.1

/-- R80: a POP in flight stays in flight until its completion. -/
theorem StepEffect.portC_of_busy (he : StepEffect s s') (hm : nextMove s ≠ some .completeC) (hbusy : s.portC ≠ .idle) :
    s'.portC = s.portC := by
  cases he with
  | idle | skipP | skipC | stored | illegal => rfl
  | returned _ hcomplete => exact absurd hcomplete hm
  | push b _ _ _ _ he => rw [he.frame, presented]
  | pop b _ _ _ _ he => exact he.portC_of_busy (s := presented s b) hbusy
  | reset b _ _ _ he => exact he.ports.2

/-! ### A silent environment -/

/-- With nothing scheduled, the move the block makes could as well have been scheduled. -/
theorem silent_step_eq_scheduled {m : Move} (hs : s.schedule = []) (hm : nextMove s = some m) :
    step s = step { s with schedule := m :: s.schedule } := by
  have hmoved : takeMove s = takeMove { s with schedule := m :: s.schedule } := by simp only [takeMove, hs, List.tail]
  rw [step, hm, hmoved, step, nextMove_of_schedule rfl]

/-- R196, log 3: with nothing scheduled and nothing in flight there is nothing to do. -/
theorem step_of_quiescent (henabled : StepsEnabled s) (hs : s.schedule = []) (hp : s.portP = .idle) (hc : s.portC = .idle) :
    step s = .next s := by
  have hm : nextMove s = none := by simp [nextMove, hs, hp, hc]
  rw [step, hm]
  exact whenRunning_of_enabled henabled _

/-- Log 3: a step of a silent environment leaves port P idle, and port C too if port P was idle before. -/
theorem RingInv.step_of_silent (h : RingInv s) (henabled : StepsEnabled s) (hs : s.schedule = []) :
    ∃ t, step s = .next t ∧ t.schedule = [] ∧ t.fault = .noFault ∧ t.portP = .idle ∧ (s.portP = .idle → t.portC = .idle) := by
  by_cases hp : s.portP = .idle
  · by_cases hc : s.portC = .idle
    · exact ⟨s, step_of_quiescent henabled hs hp hc, hs, henabled.2, hp, fun _ => hc⟩
    · obtain ⟨t, -, hstep, hidle, hfault, -, hrest, hphase⟩ := h.pop_completes henabled hc
      have hm : nextMove s = some .completeC := by simp [nextMove, hs, hp, hc]
      exact ⟨t, (silent_step_eq_scheduled hs hm).trans hstep, hrest.trans hs, hfault, hphase.trans hp, fun _ => hidle⟩
  · obtain ⟨t, hstep, hidle, hfault, -, hrest⟩ := push_completes henabled hp
    have hm : nextMove s = some .completeP := by simp [nextMove, hs, hp]
    exact ⟨t, (silent_step_eq_scheduled hs hm).trans hstep, hrest.trans hs, hfault, hidle, fun hpIdle => absurd hpIdle hp⟩

end

/-! ### The obligations -/

/-- Settles O58: only a port's own completion ends its phase, so after any other step the port is still busy; whether it can
complete is then for the fault register alone. -/
theorem busyPortsStayEnabled : Obligations.BusyPortsStayEnabled := by
  intro s hinv henabled
  refine ⟨fun hbusy => ?_, fun hbusy => ?_, fun s' hstep => ?_⟩
  · obtain ⟨t, hdone, hidle, hfault, hack, -⟩ := push_completes henabled hbusy
    exact ⟨t, hdone, hidle, hfault, hack⟩
  · obtain ⟨t, r, hdone, hidle, hfault, hresult, -⟩ := hinv.pop_completes henabled hbusy
    exact ⟨t, r, hdone, hidle, hfault, hresult⟩
  · have hinv' := stepKeepsInvariant s s' hinv hstep
    obtain ⟨-, heffect⟩ := step_effect hstep
    have hblocked (m : Move) (hraised : s'.fault ≠ .noFault) :
        step { s' with schedule := m :: s'.schedule } = .fault (.blockFaulted s'.fault) :=
      (faultedBlockTakesNoStep { s' with schedule := m :: s'.schedule } hinv'.capacity hraised).1
    refine ⟨fun hm hbusy => ?_, fun hm hbusy => ?_⟩
    · have hphase := heffect.portP_of_busy hm hbusy
      refine ⟨hphase, fun hfault => ?_, hblocked _⟩
      obtain ⟨t, hdone, hidle, hok, -⟩ := push_completes ⟨hinv'.capacity, hfault⟩ (hphase ▸ hbusy)
      exact ⟨t, hdone, hidle, hok⟩
    · have hphase := heffect.portC_of_busy hm hbusy
      refine ⟨hphase, fun hfault => ?_, hblocked _⟩
      obtain ⟨t, -, hdone, hidle, hok, -⟩ := hinv'.pop_completes ⟨hinv'.capacity, hfault⟩ (hphase ▸ hbusy)
      exact ⟨t, hdone, hidle, hok⟩

/-- Settles O59: one silent step leaves port P idle, and the second, finding it idle, leaves port C idle too. -/
theorem silentEnvironmentFinishes : Obligations.SilentEnvironmentFinishes := by
  intro s henabled
  refine ⟨fun _ => step_completeP_idle henabled, fun _ => step_completeC_idle henabled, step_of_quiescent henabled,
    fun hinv hs => ?_⟩
  obtain ⟨s1, hstep1, hs1, hfault1, hp1, -⟩ := hinv.step_of_silent henabled hs
  have hinv1 := stepKeepsInvariant s s1 hinv hstep1
  obtain ⟨s2, hstep2, hs2, hfault2, hp2, hc2⟩ := hinv1.step_of_silent ⟨hinv1.capacity, hfault1⟩ hs1
  exact ⟨s2, runSteps_two hstep1 hstep2, decide_eq_true ⟨hfault2, hp2, hc2 hp1, hs2⟩⟩

end Sys2Proof.Machine
end
